-- ==== Sys2Proof/Config.lean ====
section
/-!
DEFINITION. The block's implementation parameters (spec/00_scope.md R6): what is fixed for one
instance and is not part of its state tuple (spec/10_state.md R33).
-/

namespace Sys2Proof.Config

/-- The parameters of an instance (R6). `xlen` is `XLEN`, the width of A, B and C; it is at least 4, so
that a literal of 0..7 is not negative (R81, R103, log 1). `pmax` is `PMAX`, the capacity of program
memory in pairs. Everything that depends on a parameter takes it from here (log 2). -/
structure Params where
  xlen : Nat
  pmax : Nat
  xlen_ge : 4 ≤ xlen
  pmax_pos : 1 ≤ pmax
  deriving DecidableEq, Repr

/-- The largest value that `ip`, `PLEN` and `FAULT_IP` must hold: `max(PMAX, 7)` (R6). -/
def Params.ipMax (P : Params) : Nat := max P.pmax 7

/-- `IPW`, the smallest width that holds `max(PMAX, 7)` (R6). -/
def Params.ipw (P : Params) : Nat := Nat.log2 P.ipMax + 1

/-- The instance that `State.reset` is of: `XLEN` at the spec's default, 64, and a `PMAX` of 65536, which
the spec leaves OPEN. DESIGN CHOICE (log 2); the statements hold for every instance. -/
def params : Params := ⟨64, 65536, by decide, by decide⟩

end Sys2Proof.Config
end

