-- ==== Sys2Proof/Word.lean ====
section
/-!
DEFINITION. The value types of the block (spec/00_scope.md R7, R9).
-/

namespace Sys2Proof

/-- A register value: an `XLEN`-bit two's-complement pattern (R7, R20). -/
abbrev Word (P : Config.Params) := BitVec P.xlen

/-- A pair index or a pair count: `IPW` bits, unsigned (R9, R23, R26). -/
abbrev PairIndex (P : Config.Params) := BitVec P.ipw

/-- A 3-bit digit: an opcode field, an operand field, or an output digit (R9). -/
abbrev Digit := BitVec 3

/-- One 6-bit instruction word, a pair (R61). -/
abbrev InstrWord := BitVec 6

end Sys2Proof
end

