-- ==== Sys2Proof/Syntax.lean ====
section
/-!
DEFINITION. The instruction set: one constructor per row of spec/opcode_table.json, and the kinds of
operand an opcode reads (spec/30_encoding.md R63, R64).
-/

namespace Sys2Proof

/-- The 8 instructions, each with its 3-bit operand field `opd` (R62, R63). BXC keeps its operand: the
field is in the word and BXC reads none of its values (R105). -/
inductive Instr where
  | adv (opd : Digit)
  | bxl (opd : Digit)
  | bst (opd : Digit)
  | jnz (opd : Digit)
  | bxc (opd : Digit)
  | out (opd : Digit)
  | bdv (opd : Digit)
  | cdv (opd : Digit)
  deriving DecidableEq, Repr

/-- The three readings of an operand field (R62, R64). -/
inductive OperandKind where
  | combo | literal | ignored
  deriving DecidableEq, Repr

/-- The operand field of an instruction. -/
def Instr.opd : Instr → Digit
  | .adv o | .bxl o | .bst o | .jnz o | .bxc o | .out o | .bdv o | .cdv o => o

/-- The operand kind of each instruction (R64). -/
def Instr.kind : Instr → OperandKind
  | .adv _ | .bst _ | .out _ | .bdv _ | .cdv _ => .combo
  | .bxl _ | .jnz _ => .literal
  | .bxc _ => .ignored

end Sys2Proof
end

