-- ==== Sys2Proof/WellFormed.lean ====
section
/-!
DEFINITION. What counts as a well-formed instruction, digit list and program (spec/30_encoding.md R60,
R65, R66; spec/70_reset_and_hazards.md R146). An instruction's fields are 3 bits wide, so the type
already excludes every malformed one; the checks that can fail are those on raw digits and on length.
-/

namespace Sys2Proof

/-- Every instruction with every operand is legal to load and decode, a combo operand of 7 too: that
one faults only when it executes (R65, R66). -/
def Instr.wf : Instr → Bool
  | .adv _ => true
  | .bxl _ => true
  | .bst _ => true
  | .jnz _ => true
  | .bxc _ => true
  | .out _ => true
  | .bdv _ => true
  | .cdv _ => true

/-- A raw number is a digit (R60: "each in 0..7"). -/
def digitOk (d : Nat) : Bool := d < 8

/-- A raw pair is an opcode and an operand in range (R60, R121). -/
def pairOk (p : Nat × Nat) : Bool := digitOk p.1 && digitOk p.2

/-- A flat digit list is a program: every digit in range and a whole number of pairs (R60). -/
def digitsOk (ds : List Nat) : Bool := ds.all digitOk && ds.length % 2 == 0

/-- A program fits program memory (R142's precondition `n <= PMAX`). -/
def programFits (P : Config.Params) (words : List InstrWord) : Bool := words.length ≤ P.pmax

end Sys2Proof
end

