-- ==== Sys2Proof/Decode.lean ====
section
/-!
DEFINITION. The decoder, the encoder, and the flat digit form of a program (spec/30_encoding.md
R60 to R67).
-/

namespace Sys2Proof

/-- Why a raw number or a raw digit list is not an instruction or a program. All three are refusals at
the loader's boundary: the block itself never sees such input (R65, R121, U2). Safe. -/
inductive DecodeError where
  /-- A word above 6 bits: it is no instruction word (R61). -/
  | wordRange (w : Nat)
  /-- A digit outside 0..7 (R65). -/
  | digitRange (d : Nat)
  /-- The digits do not form a whole number of pairs (R60). -/
  | oddLength
  deriving DecidableEq, Repr

/-- Field `opc`, bits [5:3] (R61). -/
def opcOf (w : InstrWord) : Digit := w.extractLsb' 3 3

/-- Field `opd`, bits [2:0] (R61). -/
def opdOf (w : InstrWord) : Digit := w.extractLsb' 0 3

/-- The word of an opcode and an operand, `{opc, opd}` (R61). -/
def pack (opc opd : Digit) : InstrWord := opc ++ opd

/-- The decoder: total on the 64 words (R63, R65). -/
def decode (w : InstrWord) : Instr :=
  match opcOf w with
  | 0 => .adv (opdOf w)
  | 1 => .bxl (opdOf w)
  | 2 => .bst (opdOf w)
  | 3 => .jnz (opdOf w)
  | 4 => .bxc (opdOf w)
  | 5 => .out (opdOf w)
  | 6 => .bdv (opdOf w)
  | 7 => .cdv (opdOf w)

/-- The encoder, from the word patterns of R63. -/
def encode : Instr → InstrWord
  | .adv d => 0b000#3 ++ d
  | .bxl d => 0b001#3 ++ d
  | .bst d => 0b010#3 ++ d
  | .jnz d => 0b011#3 ++ d
  | .bxc d => 0b100#3 ++ d
  | .out d => 0b101#3 ++ d
  | .bdv d => 0b110#3 ++ d
  | .cdv d => 0b111#3 ++ d

/-- The decoder on a raw number: a number of more than 6 bits is refused by name (R61, R65). -/
def decodeRaw (w : Nat) : Except DecodeError Instr :=
  if w < 64 then .ok (decode (BitVec.ofNat 6 w)) else .error (.wordRange w)

/-- The instruction read from a word of the opcode table, whose low `nbits` bits are `w`.
A 6-bit word has no byte order (R43); a bit above bit 5 belongs to no instruction (log 19). -/
def decodeTableWord (nbits w : Nat) : Option Instr := (decodeRaw (w % 2 ^ nbits)).toOption

/-- A raw number as a digit, refused outside 0..7 (R60, R65). -/
def digitOfNat (n : Nat) : Except DecodeError Digit :=
  if digitOk n then .ok (BitVec.ofNat 3 n) else .error (.digitRange n)

/-- The words of a flat digit list: digit 2i is the opcode of pair i and digit 2i+1 its operand (R60).
The first error in list order is the one reported (log 26). -/
def wordsOfDigits : List Nat → Except DecodeError (List InstrWord)
  | [] => .ok []
  | [_] => .error .oddLength
  | c :: d :: ds =>
    match digitOfNat c, digitOfNat d, wordsOfDigits ds with
    | .ok opc, .ok opd, .ok ws => .ok (pack opc opd :: ws)
    | .error e, _, _ => .error e
    | .ok _, .error e, _ => .error e
    | .ok _, .ok _, .error e => .error e

/-- The flat digit form of a program (R60). -/
def digitsOfWords (ws : List InstrWord) : List Nat :=
  ws.flatMap fun w => [(opcOf w).toNat, (opdOf w).toNat]

end Sys2Proof
end

