-- ==== Sys2Proof/Machine/State.lean ====
section
/-!
DEFINITION. The state of the block: the tuple of spec/10_state.md R33, over the instance's parameters,
and its value after reset (R32).
-/

namespace Sys2Proof.Machine

/-- `STATUS.STATE` (R26). -/
inductive RunState where
  | idle | run | halt | fault
  deriving DecidableEq, Repr

/-- `FAULT_CODE.CODE` (R26, R120). Code 3 is reserved and never written, so no value stands for it (U7). -/
inductive FaultCode where
  | none | comboReserved | negExponent
  deriving DecidableEq, Repr

/-- The two causes an instruction can raise (R120). -/
inductive Cause where
  | comboReserved | negExponent
  deriving DecidableEq, Repr

/-- The names of the three registers (R20). -/
inductive Reg where
  | a | b | c
  deriving DecidableEq, Repr

/-- The register file (R20): the "register snapshot" the combo mux reads (R8, R80). -/
structure Regs (P : Config.Params) where
  a : Word P
  b : Word P
  c : Word P
  deriving DecidableEq, Repr

/-- One listed cell of program memory: a pair index and its 6-bit word (R28, R40). -/
abbrev PCell := Nat × InstrWord

/-- Program memory `PMem` (R28): its cells, pair indices strictly rising; an index that is not listed
reads as one fixed word, which no listed cell holds (log 6, log 7). -/
abbrev Memory := List PCell

/-- The state tuple of R33, for the parameters `P`. -/
structure Block (P : Config.Params) where
  /-- `STATUS.STATE` (R26). -/
  status : RunState
  /-- `FAULT_CODE` (R26). -/
  faultCode : FaultCode
  /-- `FAULT_IP` (R26). -/
  faultIp : PairIndex P
  /-- `PLEN`, the pair count of the loaded program (R26). -/
  plen : PairIndex P
  /-- `PMem` (R28). -/
  pmem : Memory
  /-- A, B and C (R20). -/
  regs : Regs P
  /-- `ip`, the pair index of the instruction that executes next (R23). -/
  ip : PairIndex P
  /-- `OUT_SEQ`, oldest digit first (R27). -/
  outSeq : List Digit
  deriving DecidableEq, Repr

/-- A block together with its parameters, which every operation takes from here and none changes (R6,
R33, log 3). -/
structure State where
  params : Config.Params
  block : Block params
  deriving DecidableEq, Repr

/-- The state of a block whose parameters are known. -/
abbrev Block.state {P : Config.Params} (b : Block P) : State := ⟨P, b⟩

/-- Why the core takes no step. Each is a stuck state, not one of the block's own faults: those are
next states with `status = .fault` (R122, log 10). -/
inductive Fault where
  /-- Raised by `step` in IDLE: the core has no step there (R100). Safe: the hardware waits too. -/
  | idle
  /-- Raised by `step` in HALT: the run has ended (R100, R152). Safe: the hardware waits too. -/
  | halted
  /-- Raised by `step` in FAULT: the run has failed and no core step leaves it (R100, R125). Safe: the
  hardware waits too. -/
  | faulted
  /-- Raised by `step` when it would fetch at or past `PMAX`, where there is no cell (R40). No run reaches
  such a state, since `PLEN` is at most `PMAX`. Safe: it stops where there is nothing to fetch. -/
  | noSuchPair
  deriving DecidableEq, Repr

/-- Why the model has no move. -/
inductive Refusal where
  /-- Raised by `exec` for an instruction that has no meaning yet; no instruction is left in that case.
  Safe. -/
  | notModelled (mnemonic : String)
  /-- Raised by LOAD while STATE = RUN: the host breaks a duty and there is no transition (R142, R146,
  U9). Unsafe for such a host: a claim says nothing of it (log 12). -/
  | loadWhileRunning
  /-- Raised by LOAD with more than `PMAX` words: the host breaks a duty (R142, R146, U9). Unsafe for
  such a host (log 12). -/
  | loadTooLong
  /-- Raised by START while STATE = RUN: the host breaks a duty (R143, R146, U9). Unsafe for such a
  host (log 12). -/
  | startWhileRunning
  /-- Raised by START with a value that does not fit in `XLEN` bits: the host breaks a duty (R146, U9).
  Unsafe for such a host (log 12). -/
  | startOutOfRange
  deriving DecidableEq, Repr

/-- The state after RESET or power-on (R32, R140, R141), with what A, B, C and PMem, which it leaves
unspecified, happen to hold. -/
def Block.resetWith {P : Config.Params} (regs : Regs P) (pmem : Memory) : Block P where
  status := .idle
  faultCode := .none
  faultIp := 0
  plen := 0
  pmem := pmem
  regs := regs
  ip := 0
  outSeq := []

/-- The machine right after reset (R32). DESIGN CHOICE (log 4, log 6): zero for A, B, C and every cell of
PMem, for which the spec gives no value. -/
def State.reset : State := ⟨Config.params, Block.resetWith ⟨0, 0, 0⟩ []⟩

end Sys2Proof.Machine
end

