-- ==== Sys2Proof/Machine/Ops.lean ====
section
/-!
DEFINITION. The named operations over program memory, registers and control state, and taking a fault
(spec/10_state.md, spec/20_memory.md, spec/60_exceptions.md R122).
-/

namespace Sys2Proof.Machine

/-- What one core step or one host command answers. -/
abbrev Result := Host.Outcome State Fault Refusal

/-! ### Program memory -/

/-- What a cell that is not listed reads as. DESIGN CHOICE (log 6): the spec leaves it unspecified. -/
def unlistedWord : InstrWord := 0

/-- The word of one cell (R41). -/
def Memory.read : Memory → Nat → InstrWord
  | [], _ => unlistedWord
  | (i, w) :: m, a => if i = a then w else Memory.read m a

/-- Put a cell at its place among rising indices, in place of an older one. -/
def Memory.insert : Memory → Nat → InstrWord → Memory
  | [], a, v => [(a, v)]
  | (i, w) :: m, a, v =>
    if a < i then (a, v) :: (i, w) :: m
    else if a = i then (a, v) :: m
    else (i, w) :: Memory.insert m a v

/-- Take a cell off the list. -/
def Memory.erase (m : Memory) (a : Nat) : Memory := m.filter fun x => x.1 ≠ a

/-- Write one cell, keeping the canonical form: a cell that holds what an unlisted one reads as is not
listed. -/
def Memory.write (m : Memory) (a : Nat) (v : InstrWord) : Memory :=
  if v = unlistedWord then Memory.erase m a else Memory.insert m a v

/-- Write `ws` to consecutive cells from `base` on: LOAD's loop (R142). -/
def Memory.load (m : Memory) (base : Nat) : List InstrWord → Memory
  | [] => m
  | w :: ws => Memory.load (Memory.write m base w) (base + 1) ws

/-- The canonical form of program memory: indices strictly rising, and no listed cell equal to what an
unlisted one reads as. -/
abbrev Memory.wf (m : Memory) : Prop :=
  (m.Pairwise fun x y => x.1 < y.1) ∧ ∀ x ∈ m, x.2 ≠ unlistedWord

variable {P : Config.Params}

/-- Fetch: the word of the pair at `ip` (R41); there is none at or past `PMAX` (R40). -/
def fetch (b : Block P) : Option InstrWord :=
  if b.ip.toNat < P.pmax then some (Memory.read b.pmem b.ip.toNat) else none

/-! ### Registers -/

/-- Read a register (R8). -/
def Regs.read (r : Regs P) : Reg → Word P
  | .a => r.a
  | .b => r.b
  | .c => r.c

/-- Write a register (R8, R22). -/
def Regs.write (r : Regs P) (v : Word P) : Reg → Regs P
  | .a => { r with a := v }
  | .b => { r with b := v }
  | .c => { r with c := v }

/-- Write the destination register (R100, the destination select of R89). -/
def Block.writeReg (b : Block P) (d : Reg) (v : Word P) : Block P :=
  { b with regs := b.regs.write v d }

/-! ### The instruction pointer and the output -/

/-- The ip incrementer, `ip + 1` on `IPW` bits (R86). -/
def ipInc (b : Block P) : PairIndex P := b.ip + 1

/-- Set the ip (R8). -/
def Block.setIp (b : Block P) (target : PairIndex P) : Block P := { b with ip := target }

/-- Advance to the next pair (R23, R86). -/
def Block.advance (b : Block P) : Block P := b.setIp (ipInc b)

/-- `Emit(d)`: append one digit to `OUT_SEQ` (R8, R27). -/
def Block.emit (b : Block P) (d : Digit) : Block P := { b with outSeq := b.outSeq ++ [d] }

/-! ### Faults and the end of a run -/

/-- The FAULT_CODE of a cause (R120). -/
def Cause.code : Cause → FaultCode
  | .comboReserved => .comboReserved
  | .negExponent => .negExponent

/-- Taking a fault (R122): the cause and the ip of the instruction are recorded, everything else is
kept, and the run ends in FAULT. There is no handler to go to and no return from it (R125). -/
def Block.raise (b : Block P) (c : Cause) : Block P :=
  { b with status := .fault, faultCode := c.code, faultIp := b.ip }

/-- Finish an instruction as a whole: all of its effects, or the fault and none of them (R100, R122). -/
def complete {α : Type} (r : Except Cause α) (b : Block P) (effect : α → Block P) : Result :=
  match r with
  | .ok v => .next (effect v).state
  | .error c => .next (b.raise c).state

/-- The halt step: only STATE changes (R100). -/
def Block.halt (b : Block P) : Block P := { b with status := .halt }

/-- The halt test (R100). -/
def haltDue (b : Block P) : Bool := b.plen.toNat ≤ b.ip.toNat

/-- Why the core has no step in a state, if it has none (R100, R131). -/
def noStep (b : Block P) : Option Fault :=
  match b.status with
  | .run => none
  | .idle => some .idle
  | .halt => some .halted
  | .fault => some .faulted

/-- Place one word at the ip, inside the program, with a run in progress; an ip that names no cell goes
to pair 0 first (log 9, log 22). -/
def Block.placeWord (b : Block P) (w : InstrWord) : Block P :=
  let ip := if b.ip.toNat < P.pmax then b.ip else 0
  { b with
    status := .run
    ip := ip
    plen := if ip.toNat < b.plen.toNat then b.plen else ip + 1
    pmem := Memory.write b.pmem ip.toNat w }

/-! ### The status registers as bits -/

/-- The 2 bits of `STATUS.STATE` (R26). -/
def RunState.bits : RunState → BitVec 2
  | .idle => 0
  | .run => 1
  | .halt => 2
  | .fault => 3

/-- The 2 bits of `FAULT_CODE.CODE` (R26, R120). -/
def FaultCode.bits : FaultCode → BitVec 2
  | .none => 0
  | .comboReserved => 1
  | .negExponent => 2

end Sys2Proof.Machine
end

