-- ==== Sys2Proof/Machine/Alu.lean ====
section
/-!
DEFINITION. The ALU (spec/40_datapath.md R83 to R85), at any register width `w`.
-/

namespace Sys2Proof.Machine

/-- `tdiv(a, k)`: divide by `2^k`, truncating toward zero; a negative exponent raises NEG_EXPONENT (R83).
For `k >= w` the quotient is 0 (R83's property), which is said here directly so that no power of two
above the register width is ever formed (log 18). -/
def tdiv {w : Nat} (a : BitVec w) (k : Int) : Except Cause (BitVec w) :=
  if k < 0 then .error .negExponent
  else if (w : Int) ≤ k then .ok 0
  else .ok (BitVec.ofInt w (a.toInt.tdiv (2 ^ k.toNat)))

/-- The hardware form of `tdiv` for `0 <= k < w`: add a rounding bias to a negative dividend, then shift
arithmetically (R91). -/
def tdivShift {w : Nat} (a : BitVec w) (k : Nat) : BitVec w :=
  (a + (if a.toInt < 0 then BitVec.ofInt w (2 ^ k - 1) else 0)).sshiftRight k

/-- XOR of two's-complement patterns (R84). -/
def xorAlu {w : Nat} (a b : BitVec w) : BitVec w := a ^^^ b

/-- `mod8(v)`: the Euclidean remainder mod 8, always 0..7 (R85). -/
def mod8 {w : Nat} (v : BitVec w) : Digit := BitVec.ofInt 3 (v.toInt.emod 8)

/-- A digit as a register value, `zext_XLEN` (R103). -/
def zextDigit (P : Config.Params) (d : Digit) : Word P := d.setWidth P.xlen

end Sys2Proof.Machine
end

