-- ==== Sys2Proof/Machine/Operands.lean ====
section
/-!
DEFINITION. Operand resolution: the literal and the combo operand (spec/40_datapath.md R80 to R82).
-/

namespace Sys2Proof.Machine

variable {P : Config.Params}

/-- `lit(o)`: the operand zero-extended to a register value (R81). -/
def lit (P : Config.Params) (o : Digit) : Word P := o.setWidth P.xlen

/-- The combo-operand mux over the register snapshot (R80); operand 7 raises COMBO_RESERVED (R82). -/
def combo (o : Digit) (r : Regs P) : Except Cause (Word P) :=
  match o with
  | 0 => .ok (lit P 0)
  | 1 => .ok (lit P 1)
  | 2 => .ok (lit P 2)
  | 3 => .ok (lit P 3)
  | 4 => .ok r.a
  | 5 => .ok r.b
  | 6 => .ok r.c
  | 7 => .error .comboReserved

end Sys2Proof.Machine
end

