-- ==== Sys2Proof/Machine/Divide.lean ====
section
/-!
DEFINITION. The division family: ADV, BDV and CDV (spec/41_instructions.md R101, R107, R108).
-/

namespace Sys2Proof.Machine

/-- The exponent from the combo mux, then the quotient of A: COMBO_RESERVED comes before NEG_EXPONENT,
since operand 7 yields no exponent to test (R123). -/
def quotient {P : Config.Params} (o : Digit) (r : Regs P) : Except Cause (Word P) :=
  match combo o r with
  | .ok k => tdiv r.a k.toInt
  | .error c => .error c

/-- Divide A by a power of two into `dest`, reading every operand before the write (R48). -/
def divideInto (dest : Reg) (o : Digit) (s : State) : Result :=
  complete (quotient o s.block.regs) s.block fun v => (s.block.writeReg dest v).advance

/-- ADV (R101). -/
def execAdv (o : Digit) (s : State) : Result := divideInto .a o s

/-- BDV (R107). -/
def execBdv (o : Digit) (s : State) : Result := divideInto .b o s

/-- CDV (R108). -/
def execCdv (o : Digit) (s : State) : Result := divideInto .c o s

end Sys2Proof.Machine
end

