-- ==== Sys2Proof/Machine/Flags.lean ====
section
/-!
DEFINITION. The block has no flags (spec/10_state.md R25). Its one condition is the zero-detect, which
is computed from A and not stored, and the next-ip mux it drives (spec/40_datapath.md R87, R88).
-/

namespace Sys2Proof.Machine

variable {P : Config.Params}

/-- The zero-detect `nz = (x[A] != 0)` (R87): A as a pattern is not zero, a negative A included. -/
def nz (b : Block P) : Bool := b.regs.a != 0

/-- The ip that JNZ selects: the literal operand as a pair index when A is not zero, else the
incremented ip (R88, R104). -/
def jumpIp (o : Digit) (b : Block P) : PairIndex P :=
  if nz b then o.setWidth P.ipw else ipInc b

end Sys2Proof.Machine
end

