-- ==== Sys2Proof/Machine/Jump.lean ====
section
/-!
DEFINITION. The one control transfer, JNZ (spec/41_instructions.md R104, R109).
-/

namespace Sys2Proof.Machine

/-- JNZ (R104). -/
def execJnz (o : Digit) (s : State) : Result := .next (s.block.setIp (jumpIp o s.block)).state

end Sys2Proof.Machine
end

