-- ==== Sys2Proof/Machine/Modulo.lean ====
section
/-!
DEFINITION. The modulo family: BST and OUT (spec/41_instructions.md R103, R106).
-/

namespace Sys2Proof.Machine

/-- The combo operand modulo 8. -/
def comboDigit {P : Config.Params} (o : Digit) (r : Regs P) : Except Cause Digit :=
  match combo o r with
  | .ok v => .ok (mod8 v)
  | .error c => .error c

/-- BST (R103). -/
def execBst (o : Digit) (s : State) : Result :=
  complete (comboDigit o s.block.regs) s.block fun d =>
    (s.block.writeReg .b (zextDigit s.params d)).advance

/-- OUT (R106). -/
def execOut (o : Digit) (s : State) : Result :=
  complete (comboDigit o s.block.regs) s.block fun d => (s.block.emit d).advance

end Sys2Proof.Machine
end

