-- ==== Sys2Proof/Machine/Xor.lean ====
section
/-!
DEFINITION. The XOR family: BXL and BXC (spec/41_instructions.md R102, R105).
-/

namespace Sys2Proof.Machine

/-- XOR B with a value, into B. -/
def xorIntoB (s : State) (v : Word s.params) : Result :=
  .next (s.block.writeReg .b (xorAlu s.block.regs.b v)).advance.state

/-- BXL: the literal, 7 included (R102). -/
def execBxl (o : Digit) (s : State) : Result := xorIntoB s (lit s.params o)

/-- BXC: the operand field is read from the word and ignored (R105). -/
def execBxc (_o : Digit) (s : State) : Result := xorIntoB s s.block.regs.c

end Sys2Proof.Machine
end

