-- ==== Sys2Proof/Machine/Dispatch.lean ====
section
/-! DEFINITION. From an instruction to its meaning, one arm per constructor (spec/41_instructions.md). -/

namespace Sys2Proof.Machine

/-- The meaning of an instruction, executed in a state (R101 to R108). `step` is what checks STATE and
the halt test (R100, log 21). -/
def exec (i : Instr) (s : State) : Host.Outcome State Fault Refusal :=
  match i with
  | .adv o => Sys2Proof.Machine.execAdv o s
  | .bxl o => Sys2Proof.Machine.execBxl o s
  | .bst o => Sys2Proof.Machine.execBst o s
  | .jnz o => Sys2Proof.Machine.execJnz o s
  | .bxc o => Sys2Proof.Machine.execBxc o s
  | .out o => Sys2Proof.Machine.execOut o s
  | .bdv o => Sys2Proof.Machine.execBdv o s
  | .cdv o => Sys2Proof.Machine.execCdv o s

end Sys2Proof.Machine
end

