-- ==== Sys2Proof/Machine/Step.lean ====
section
/-! DEFINITION. One step of the core (spec/41_instructions.md R100). -/

namespace Sys2Proof.Machine

/-- One step: none outside RUN; a halt step at or past `PLEN`; else fetch, decode and execute (R100). -/
def step (s : State) : Host.Outcome State Fault Refusal :=
  match noStep s.block with
  | some stuck => .fault stuck
  | none =>
    if haltDue s.block then .next s.block.halt.state
    else
      match fetch s.block with
      | some w => exec (decode w) s
      | none => .fault .noSuchPair

/-- `s` with the instruction whose low `nbits` bits are `w` as the one that the next step runs: placed
at the ip, inside the program, with STATE = RUN (log 9, log 22). -/
def State.withFetchWord (s : State) (nbits w : Nat) : State :=
  (s.block.placeWord (BitVec.ofNat 6 (w % 2 ^ nbits))).state

end Sys2Proof.Machine
end

