-- ==== Sys2Proof/Machine/Assembler.lean ====
section
/-!
DEFINITION. The written forms of an instruction (spec/30_encoding.md R68): the pair form `(ADV,1)`, the
flat form `0,1` and the line form `ADV 1`. Text is a list of characters. Software's notation only; no
step depends on it.
-/

namespace Sys2Proof.Machine

/-- The mnemonic of an opcode, in upper case (R11, R63). -/
def mnemonicOf (opc : Digit) : List Char :=
  match opc with
  | 0 => ['A', 'D', 'V']
  | 1 => ['B', 'X', 'L']
  | 2 => ['B', 'S', 'T']
  | 3 => ['J', 'N', 'Z']
  | 4 => ['B', 'X', 'C']
  | 5 => ['O', 'U', 'T']
  | 6 => ['B', 'D', 'V']
  | 7 => ['C', 'D', 'V']

/-- The eight digits, for looking one up by how it is written. -/
def allDigits : List Digit := (List.range 8).map (BitVec.ofNat 3)

/-- The decimal character of a digit (R68). -/
def charOfDigit (d : Digit) : Char := Char.ofNat ('0'.toNat + d.toNat)

/-- The digit that a character writes, none for any character but the eight (R68). -/
def digitOfChar (c : Char) : Option Digit := allDigits.find? fun d => charOfDigit d == c

/-- The opcode of a mnemonic, matched without regard to case (R68). -/
def opcOfMnemonic (x y z : Char) : Option Digit :=
  allDigits.find? fun opc => mnemonicOf opc == [x.toUpper, y.toUpper, z.toUpper]

/-- The instruction of an opcode and an operand, each possibly unreadable. -/
def instrOfFields (opc opd : Option Digit) : Option Instr :=
  match opc, opd with
  | some c, some d => some (decode (pack c d))
  | _, _ => none

/-- Read one instruction in any of the three forms of R68, spelled exactly as there (log 24). -/
def parseInstr : List Char → Option Instr
  | ['(', x, y, z, ',', d, ')'] => instrOfFields (opcOfMnemonic x y z) (digitOfChar d)
  | [x, y, z, ' ', d] => instrOfFields (opcOfMnemonic x y z) (digitOfChar d)
  | [c, ',', d] => instrOfFields (digitOfChar c) (digitOfChar d)
  | _ => none

/-- The pair form, `(ADV,1)` (R68). -/
def pairForm (i : Instr) : List Char :=
  '(' :: mnemonicOf (opcOf (encode i)) ++ [',', charOfDigit i.opd, ')']

/-- The flat form, `0,1` (R68). -/
def flatForm (i : Instr) : List Char :=
  [charOfDigit (opcOf (encode i)), ',', charOfDigit i.opd]

/-- The line form, `ADV 1` (R68). -/
def lineForm (i : Instr) : List Char :=
  mnemonicOf (opcOf (encode i)) ++ [' ', charOfDigit i.opd]

end Sys2Proof.Machine
end

