-- ==== Sys2Proof/Machine/Control.lean ====
section
/-!
DEFINITION. The decoder's control signals and the datapath they drive (spec/40_datapath.md R89): a second
description of the same 8 instructions, one row of signals per opcode. `exec` is the model; this is
the block's structure, for a statement that the two agree.
-/

namespace Sys2Proof.Machine

/-- The ALU's three operations (R1, R89); `unused` is the table's `-`. -/
inductive AluOp where
  | div2k | xor | mod8 | unused
  deriving DecidableEq, Repr

/-- Where an ALU input comes from (R89); `unused` is the table's `-`. -/
inductive AluIn where
  | reg (r : Reg) | operand | unused
  deriving DecidableEq, Repr

/-- What drives the next ip (R88, R89). -/
inductive IpSelect where
  | inc | litIfNz
  deriving DecidableEq, Repr

/-- One row of R89's table. -/
structure Control where
  path : OperandKind
  alu : AluOp
  in1 : AluIn
  in2 : AluIn
  dest : Option Reg
  emits : Bool
  ipSelect : IpSelect
  deriving DecidableEq, Repr

/-- The decoder's control table (R89). -/
def controlSignals (opc : Digit) : Control :=
  match opc with
  | 0 => ⟨.combo, .div2k, .reg .a, .operand, some .a, false, .inc⟩
  | 1 => ⟨.literal, .xor, .reg .b, .operand, some .b, false, .inc⟩
  | 2 => ⟨.combo, .mod8, .operand, .unused, some .b, false, .inc⟩
  | 3 => ⟨.literal, .unused, .unused, .unused, none, false, .litIfNz⟩
  | 4 => ⟨.ignored, .xor, .reg .b, .reg .c, some .b, false, .inc⟩
  | 5 => ⟨.combo, .mod8, .operand, .unused, none, true, .inc⟩
  | 6 => ⟨.combo, .div2k, .reg .a, .operand, some .b, false, .inc⟩
  | 7 => ⟨.combo, .div2k, .reg .a, .operand, some .c, false, .inc⟩

variable {P : Config.Params}

/-- The operand bus. An ignored operand drives 0, which nothing reads (log 20). -/
def operandBus (path : OperandKind) (o : Digit) (r : Regs P) : Except Cause (Word P) :=
  match path with
  | .combo => combo o r
  | .literal => .ok (lit P o)
  | .ignored => .ok 0

/-- One ALU input. An unused input is 0, which nothing reads (log 20). -/
def aluInput (i : AluIn) (operand : Word P) (r : Regs P) : Word P :=
  match i with
  | .reg x => r.read x
  | .operand => operand
  | .unused => 0

/-- The ALU's output bus. -/
def aluOutput (op : AluOp) (x y : Word P) : Except Cause (Word P) :=
  match op with
  | .div2k => tdiv x y.toInt
  | .xor => .ok (xorAlu x y)
  | .mod8 => .ok (zextDigit P (mod8 x))
  | .unused => .ok 0

/-- The result bus of a row of signals, or the fault raised on the way (R82, R83). -/
def resultBus (k : Control) (o : Digit) (r : Regs P) : Except Cause (Word P) :=
  match operandBus k.path o r with
  | .error c => .error c
  | .ok v => aluOutput k.alu (aluInput k.in1 v r) (aluInput k.in2 v r)

/-- The next-ip mux (R88). -/
def nextIp (sel : IpSelect) (o : Digit) (b : Block P) : PairIndex P :=
  match sel with
  | .inc => ipInc b
  | .litIfNz => jumpIp o b

/-- Commit a row of signals: the destination if any, the emit if any, then the ip, all computed from
the state before the step (R100). -/
def commit (k : Control) (o : Digit) (v : Word P) (b : Block P) : Block P :=
  { b with
    regs := match k.dest with
      | some d => b.regs.write v d
      | none => b.regs
    outSeq := if k.emits then b.outSeq ++ [v.setWidth 3] else b.outSeq
    ip := nextIp k.ipSelect o b }

/-- Execute one word from the control signals of its opcode (R89). -/
def datapath (w : InstrWord) (s : State) : Result :=
  complete (resultBus (controlSignals (opcOf w)) (opdOf w) s.block.regs) s.block fun v =>
    commit (controlSignals (opcOf w)) (opdOf w) v s.block

end Sys2Proof.Machine
end

