-- ==== Sys2Proof/Machine/HostCommands.lean ====
section
/-!
DEFINITION. What the host can do: RESET, LOAD, START and READ, the output stream, and one transition
function over core steps and host commands (spec/70_reset_and_hazards.md R140 to R148).
-/

namespace Sys2Proof.Machine

/-- What RESET leaves unspecified, as a free draw (R32, U5, U6): a number for each register, taken as an
`XLEN`-bit pattern, and words for program memory from pair 0 on, as many as it has cells. Every register
file and every program memory is some draw's (log 4, log 6). -/
structure Draw where
  a : Int
  b : Int
  c : Int
  words : List InstrWord
  deriving DecidableEq, Repr

/-- The registers of a draw. -/
def Draw.regs (P : Config.Params) (d : Draw) : Regs P :=
  ⟨BitVec.ofInt P.xlen d.a, BitVec.ofInt P.xlen d.b, BitVec.ofInt P.xlen d.c⟩

/-- The program memory of a draw. -/
def Draw.pmem (P : Config.Params) (d : Draw) : Memory := Memory.load [] 0 (d.words.take P.pmax)

/-- The host's commands (R141 to R144). -/
inductive HostCommand where
  /-- RESET, with what it leaves unspecified (R32, R141). -/
  | reset (draw : Draw)
  /-- LOAD of `words`, whose length is the spec's `n` (R142, log 13). -/
  | load (words : List InstrWord)
  /-- START with the initial registers (R143). -/
  | start (a b c : Int)
  /-- READ of an index of the host register map (R144). -/
  | read (i : Digit)
  deriving DecidableEq, Repr

/-- The state after power-on, the same as after RESET (R140). -/
def powerOn (P : Config.Params) (draw : Draw) : State :=
  (Block.resetWith (draw.regs P) (draw.pmem P)).state

/-- RESET, legal in any state (R141). -/
def hostReset (draw : Draw) (s : State) : Result := .next (powerOn s.params draw)

/-- LOAD (R142). -/
def hostLoad (words : List InstrWord) (s : State) : Result :=
  if s.block.status = .run then .refused .loadWhileRunning
  else if programFits s.params words then
    .next { s.block with
      pmem := Memory.load s.block.pmem 0 words
      plen := BitVec.ofNat s.params.ipw words.length }.state
  else .refused .loadTooLong

/-- A value fits in `XLEN` bits as a two's-complement number (R7, R146). -/
def fitsXlen (P : Config.Params) (v : Int) : Bool := -2 ^ (P.xlen - 1) ≤ v ∧ v < 2 ^ (P.xlen - 1)

/-- START (R143). -/
def hostStart (a b c : Int) (s : State) : Result :=
  if s.block.status = .run then .refused .startWhileRunning
  else if fitsXlen s.params a ∧ fitsXlen s.params b ∧ fitsXlen s.params c then
    .next { s.block with
      regs := ⟨BitVec.ofInt _ a, BitVec.ofInt _ b, BitVec.ofInt _ c⟩
      ip := 0
      outSeq := []
      faultCode := .none
      faultIp := 0
      status := .run }.state
  else .refused .startOutOfRange

/-- The value READ returns: the host register map of R29, narrower values zero-extended to `XLEN`
bits (log 16). -/
def hostRead {P : Config.Params} (i : Digit) (b : Block P) : Word P :=
  match i with
  | 0 => b.status.bits.setWidth P.xlen
  | 1 => b.faultCode.bits.setWidth P.xlen
  | 2 => b.faultIp.setWidth P.xlen
  | 3 => b.plen.setWidth P.xlen
  | 4 => b.regs.a
  | 5 => b.regs.b
  | 6 => b.regs.c
  | 7 => b.ip.setWidth P.xlen

/-- A host command as a transition; READ changes nothing (R144). -/
def hostAct (cmd : HostCommand) (s : State) : Result :=
  match cmd with
  | .reset draw => hostReset draw s
  | .load words => hostLoad words s
  | .start a b c => hostStart a b c s
  | .read _ => .next s

/-- What can happen to the block: a core step, or a host command between two steps (R12, R144). -/
inductive Event where
  | coreStep
  | command (cmd : HostCommand)
  deriving DecidableEq, Repr

/-- One event. -/
def act (e : Event) (s : State) : Result :=
  match e with
  | .coreStep => step s
  | .command cmd => hostAct cmd s

/-- A sequence of events, stopping at the first one that has no move. -/
def acts : List Event → State → Result
  | [], s => .next s
  | e :: es, s =>
    match act e s with
    | .next t => acts es t
    | .fault r => .fault r
    | .refused r => .refused r

/-- The digit an instruction emits, if it emits one: OUT does, unless it faults (R106). -/
def emitted {P : Config.Params} (i : Instr) (r : Regs P) : Option Digit :=
  match i with
  | .out o => (comboDigit o r).toOption
  | .adv _ | .bxl _ | .bst _ | .jnz _ | .bxc _ | .bdv _ | .cdv _ => none

/-- The output port during the next core step: `out_data` when `out_valid` is strobed, else none
(R145). It is strobed exactly when that step executes an OUT that does not fault. -/
def outPort (s : State) : Option Digit :=
  match noStep s.block with
  | some _ => none
  | none =>
    if haltDue s.block then none
    else
      match fetch s.block with
      | some w => emitted (decode w) s.block.regs
      | none => none

/-- The digits delivered by the next `k` core steps, in order (R145). -/
def delivered : Nat → State → List Digit
  | 0, _ => []
  | k + 1, s =>
    match step s with
    | .next t => (outPort s).toList ++ delivered k t
    | .fault _ => []
    | .refused _ => []

end Sys2Proof.Machine
end

