-- ==== Sys2Proof/Safety.lean ====
section
/-!
DEFINITION. The invariant of the block's states, what ends a run, and what the host observes of it
(spec/10_state.md R24, R26; spec/70_reset_and_hazards.md R152).
-/

namespace Sys2Proof.Machine

variable {P : Config.Params}

/-- The states a block can be in. -/
structure Block.Inv (b : Block P) : Prop where
  /-- Program memory is in canonical form. -/
  memWf : Memory.wf b.pmem
  /-- Every listed cell is inside program memory (R40). -/
  memInRange : ∀ x ∈ b.pmem, x.1 < P.pmax
  /-- The program fits (R26: PLEN is `0 .. PMAX`). -/
  plenLe : b.plen.toNat ≤ P.pmax
  /-- The ip never leaves `0 .. max(PMAX, 7)` (R24). -/
  ipLe : b.ip.toNat ≤ P.ipMax
  /-- During a run the ip lies in `0 .. max(PLEN, 7)` (R24). -/
  ipRun : b.status = .run → b.ip.toNat ≤ max b.plen.toNat 7
  /-- A fault code other than NONE is recorded exactly in FAULT (R26, R122). -/
  codeFault : b.faultCode ≠ .none ↔ b.status = .fault
  /-- FAULT_IP is 0 outside FAULT (R26). -/
  faultIpZero : b.status ≠ .fault → b.faultIp = 0
  /-- In FAULT the ip has stayed at the faulting instruction, a pair of program memory (R122). -/
  faultIpEq : b.status = .fault → b.faultIp = b.ip ∧ b.faultIp.toNat < P.pmax

/-- The invariant of a state: that of its block. -/
def State.Inv (s : State) : Prop := s.block.Inv

/-- A run has ended (R152). -/
def Block.ended (b : Block P) : Prop := b.status = .halt ∨ b.status = .fault

/-- A run has succeeded (R152). -/
def Block.succeeded (b : Block P) : Prop := b.status = .halt

/-- The observation of an ended run: R152's tuple. -/
structure Observation (P : Config.Params) where
  status : RunState
  faultCode : FaultCode
  faultIp : PairIndex P
  regs : Regs P
  ip : PairIndex P
  outSeq : List Digit
  deriving DecidableEq, Repr

/-- What the host observes of a block (R152). -/
def Block.observe (b : Block P) : Observation P :=
  ⟨b.status, b.faultCode, b.faultIp, b.regs, b.ip, b.outSeq⟩

/-- Two blocks hold the same program: the same `PLEN` and the same words below it. What lies above
`PLEN` may differ (U6). -/
def SameProgram (b b' : Block P) : Prop :=
  b.plen = b'.plen ∧
    ∀ i, i < b.plen.toNat → Memory.read b.pmem i = Memory.read b'.pmem i

/-- `t` has the program of `b`: the same `PLEN`, and every cell of program memory reads as before. -/
def KeepsProgram (b t : Block P) : Prop :=
  t.plen = b.plen ∧ ∀ i, Memory.read t.pmem i = Memory.read b.pmem i

/-- `t` has STATUS, FAULT_CODE and FAULT_IP of `b`. -/
def KeepsStatus (b t : Block P) : Prop :=
  t.status = b.status ∧ t.faultCode = b.faultCode ∧ t.faultIp = b.faultIp

/-- `t` is `b` after taking a fault with cause `c`, field by field (R122). -/
def TookFault (c : Cause) (b t : Block P) : Prop :=
  t.status = .fault ∧ t.faultCode = c.code ∧ t.faultIp = b.ip ∧
    t.regs = b.regs ∧ t.ip = b.ip ∧ t.outSeq = b.outSeq

end Sys2Proof.Machine
end

