-- ==== Sys2Proof/Certificates/Slice0/Obligations.lean ====
section
/-!
DEFINITION. The statements about the block, in the order: encoding, datapath, the instruction cycle, the 8
instructions, their frames, faults, whole-machine rules, the host interface.
-/

open Sys2Proof Sys2Proof.Machine

/-! ### Encoding -/

/-- R61: the two fields of the 6-bit word, and the word as the number `opc * 8 + opd`, whose octal
digits are the pair. -/
def Obligations.WordFields : Prop :=
  (∀ opc opd : Digit,
    opcOf (pack opc opd) = opc ∧ opdOf (pack opc opd) = opd ∧
    (pack opc opd).toNat = opc.toNat * 8 + opd.toNat) ∧
  ∀ w : InstrWord,
    opcOf w = w.extractLsb 5 3 ∧ opdOf w = w.extractLsb 2 0 ∧
    w.toNat / 8 = (opcOf w).toNat ∧ w.toNat % 8 = (opdOf w).toNat

/-- R63: the opcode map, by the select mask 0x38 and the match value of each row, with the row's
word range and operand kind. -/
def Obligations.OpcodeMap : Prop :=
  ∀ w : InstrWord,
    (w &&& 0x38 = 0x00 → decode w = .adv (opdOf w) ∧ w.toNat ≤ 0x07 ∧ (decode w).kind = .combo) ∧
    (w &&& 0x38 = 0x08 → decode w = .bxl (opdOf w) ∧ 0x08 ≤ w.toNat ∧ w.toNat ≤ 0x0F ∧
      (decode w).kind = .literal) ∧
    (w &&& 0x38 = 0x10 → decode w = .bst (opdOf w) ∧ 0x10 ≤ w.toNat ∧ w.toNat ≤ 0x17 ∧
      (decode w).kind = .combo) ∧
    (w &&& 0x38 = 0x18 → decode w = .jnz (opdOf w) ∧ 0x18 ≤ w.toNat ∧ w.toNat ≤ 0x1F ∧
      (decode w).kind = .literal) ∧
    (w &&& 0x38 = 0x20 → decode w = .bxc (opdOf w) ∧ 0x20 ≤ w.toNat ∧ w.toNat ≤ 0x27 ∧
      (decode w).kind = .ignored) ∧
    (w &&& 0x38 = 0x28 → decode w = .out (opdOf w) ∧ 0x28 ≤ w.toNat ∧ w.toNat ≤ 0x2F ∧
      (decode w).kind = .combo) ∧
    (w &&& 0x38 = 0x30 → decode w = .bdv (opdOf w) ∧ 0x30 ≤ w.toNat ∧ w.toNat ≤ 0x37 ∧
      (decode w).kind = .combo) ∧
    (w &&& 0x38 = 0x38 → decode w = .cdv (opdOf w) ∧ 0x38 ≤ w.toNat ∧ w.toNat ≤ 0x3F ∧
      (decode w).kind = .combo)

/-- R65: decode and encode agree both ways, so each of the 64 words is exactly one instruction. The third
clause is the model's, not the spec's (log 19): a raw number of more than 6 bits is refused by name. -/
def Obligations.DecodeEncode : Prop :=
  (∀ i : Instr, i.wf = true ∧ decode (encode i) = i) ∧
  (∀ w : InstrWord, encode (decode w) = w ∧ decodeRaw w.toNat = .ok (decode w)) ∧
  ∀ n : Nat, 64 ≤ n → decodeRaw n = .error (.wordRange n)

/-- Words written out from R63's patterns decode to the instructions they stand for. -/
def Obligations.SampleWords : Prop :=
  decode 0b000001 = .adv 1 ∧ decode 0b001111 = .bxl 7 ∧ decode 0b010110 = .bst 6 ∧
  decode 0b011000 = .jnz 0 ∧ decode 0b100000 = .bxc 0 ∧ decode 0b101100 = .out 4 ∧
  decode 0b110011 = .bdv 3 ∧ decode 0b111101 = .cdv 5

/-- R60: a program's flat digits, opcode then operand for each pair in order. The digits of a program
read back as its instructions; a digit list is read exactly when it is well-formed, and then its words
have those digits. -/
def Obligations.ProgramDigits : Prop :=
  (∀ prog : List Instr,
    (wordsOfDigits (digitsOfWords (prog.map encode))).map (List.map decode) = .ok prog) ∧
  (∀ (ds : List Nat) (ws : List InstrWord),
    wordsOfDigits ds = .ok ws ↔ digitsOk ds = true ∧ digitsOfWords ws = ds) ∧
  ∀ (ws : List InstrWord) (i : Nat) (h : i < ws.length),
    (digitsOfWords ws).length = 2 * ws.length ∧
    (digitsOfWords ws)[2 * i]? = some (opcOf ws[i]).toNat ∧
    (digitsOfWords ws)[2 * i + 1]? = some (opdOf ws[i]).toNat

/-- R60, R65: a digit list that is not a program is refused: a first digit pair out of range by the
name of its digit, an odd rest as such (log 26 for which error is reported first). -/
def Obligations.BadDigitsRefused : Prop :=
  (∀ ds : List Nat, digitsOk ds = false ↔ ∃ e, wordsOfDigits ds = .error e) ∧
  (∀ ds : List Nat, ds.all digitOk = true → ds.length % 2 = 1 →
    wordsOfDigits ds = .error .oddLength) ∧
  ∀ (c d : Nat) (ds : List Nat), (8 ≤ c → wordsOfDigits (c :: d :: ds) = .error (.digitRange c)) ∧
    (c < 8 → 8 ≤ d → wordsOfDigits (c :: d :: ds) = .error (.digitRange d))

/-- R68: each written form of an instruction reads back as it, and a mnemonic is matched without regard
to case. The exact spelling of a form (one blank, no other) is the model's (log 24). -/
def Obligations.WrittenForms : Prop :=
  (∀ i : Instr, parseInstr (pairForm i) = some i ∧ parseInstr (flatForm i) = some i ∧
    parseInstr (lineForm i) = some i) ∧
  ∀ x y z x' y' z' d : Char, x.toUpper = x'.toUpper → y.toUpper = y'.toUpper →
    z.toUpper = z'.toUpper →
    parseInstr ['(', x, y, z, ',', d, ')'] = parseInstr ['(', x', y', z', ',', d, ')'] ∧
    parseInstr [x, y, z, ' ', d] = parseInstr [x', y', z', ' ', d]

/-! ### Datapath -/

/-- R80: the combo mux, over any register snapshot. -/
def Obligations.ComboMux : Prop :=
  ∀ (P : Config.Params) (r : Regs P),
    (∀ o : Digit, o.toNat ≤ 3 → ∃ v : Word P, combo o r = .ok v ∧ v.toInt = o.toNat) ∧
    combo 4 r = .ok r.a ∧ combo 5 r = .ok r.b ∧ combo 6 r = .ok r.c ∧
    combo 7 r = .error .comboReserved

/-- R83: division by a power of two, exact for every exponent and every register width: the quotient
truncates toward zero, a negative exponent raises NEG_EXPONENT, and the four listed properties hold. The
exponent is negative only when the combo operand selects a negative register. -/
def Obligations.DivideExact : Prop :=
  (∀ (w : Nat) (a : BitVec w) (k : Int),
    (k < 0 → tdiv a k = .error .negExponent) ∧
    (0 ≤ k → ∃ v, tdiv a k = .ok v ∧
      v.toInt = a.toInt.tdiv (2 ^ k.toNat) ∧
      v.toInt = a.toInt.sign * ((a.toInt.natAbs / 2 ^ k.toNat : Nat) : Int) ∧
      v.toInt.natAbs ≤ a.toInt.natAbs ∧
      (k = 0 → v = a) ∧
      (w ≤ k → v = 0) ∧
      (k = w - 1 → a.toInt = -2 ^ (w - 1) → 0 < w → v.toInt = -1))) ∧
  ∀ (P : Config.Params) (o : Digit) (r : Regs P) (k : Word P), combo o r = .ok k → k.toInt < 0 →
    (o = 4 ∧ k = r.a) ∨ (o = 5 ∧ k = r.b) ∨ (o = 6 ∧ k = r.c)

/-- R91: the shift form with a rounding bias is the same division; the biased addition does not
overflow; the plain arithmetic shift is wrong for every negative dividend that 2^k does not divide. -/
def Obligations.DivideShiftForm : Prop :=
  (∀ (w : Nat) (a : BitVec w) (k : Nat),
    (k < w → tdiv a k = .ok (tdivShift a k) ∧
      (a + (if a.toInt < 0 then BitVec.ofInt w (2 ^ k - 1) else 0)).toInt =
        a.toInt + (if a.toInt < 0 then 2 ^ k - 1 else 0) ∧
      (a.toInt < 0 → ¬ (2 ^ k : Int) ∣ a.toInt → tdiv a k ≠ .ok (a.sshiftRight k))) ∧
    (w ≤ k → tdiv a k = .ok 0)) ∧
  tdiv (-7 : BitVec 64) 1 = .ok (-3) ∧ (-7 : BitVec 64).sshiftRight 1 = -4

/-- R84: XOR bit by bit on two's-complement patterns; with a literal it changes only bits [2:0] of B,
so B keeps its sign. -/
def Obligations.XorBits : Prop :=
  (∀ (w : Nat) (a b : BitVec w) (i : Nat),
    (xorAlu a b).getLsbD i = (a.getLsbD i != b.getLsbD i)) ∧
  ∀ (P : Config.Params) (b : Word P) (o : Digit),
    (∀ i, 3 ≤ i → (xorAlu b (lit P o)).getLsbD i = b.getLsbD i) ∧
    ((xorAlu b (lit P o)).toInt < 0 ↔ b.toInt < 0)

/-- R85: the Euclidean remainder mod 8, equal to the low three bits, with the rule's examples. -/
def Obligations.Mod8Euclid : Prop :=
  (∀ (w : Nat) (v : BitVec w),
    ((mod8 v).toNat : Int) = v.toInt - 8 * v.toInt.fdiv 8 ∧
    (3 ≤ w → mod8 v = v.extractLsb' 0 3)) ∧
  mod8 (-1 : BitVec 64) = 7 ∧ mod8 (-8 : BitVec 64) = 0 ∧ mod8 (-9 : BitVec 64) = 7 ∧
  mod8 (13 : BitVec 64) = 5

/-- R90: every ALU result is the same on any wider register, sign-extended, and XOR on the patterns is
XOR on unbounded two's-complement integers. -/
def Obligations.ResultsWidthIndependent : Prop :=
  ∀ (w v : Nat), w ≤ v → ∀ (a b : BitVec w) (k : Int),
    tdiv (a.signExtend v) k = (tdiv a k).map (BitVec.signExtend v) ∧
    xorAlu (a.signExtend v) (b.signExtend v) = (xorAlu a b).signExtend v ∧
    mod8 (a.signExtend v) = mod8 a ∧
    (xorAlu a b).toInt = Int.xor a.toInt b.toInt

/-- R88, with R86 and R87: the next-ip mux, over the opcode's ip select; the operand as a pair index
keeps its value. -/
def Obligations.NextIpMux : Prop :=
  ∀ (P : Config.Params) (opc opd : Digit) (b : Block P),
    nextIp (controlSignals opc).ipSelect opd b =
      (if opc = 3 ∧ b.regs.a ≠ 0 then opd.setWidth P.ipw else b.ip + 1) ∧
    (opd.setWidth P.ipw).toNat = opd.toNat

/-- R89: the datapath driven by the decoder's control signals does, for every word and every state,
exactly what the instruction that the word decodes to does. -/
def Obligations.DatapathRefines : Prop :=
  ∀ (w : InstrWord) (s : State), datapath w s = exec (decode w) s

/-! ### The instruction cycle -/

/-- A step runs the decoded instruction: in RUN, below PLEN, with the word of `i` at the ip, the step
is exactly `exec i`; the instruction itself moves the ip. A word placed by `withFetchWord` (the model's
aid, log 22) is run by the next step. -/
def Obligations.StepRunsDecoded : Prop :=
  (∀ (P : Config.Params) (b : Block P) (i : Instr), b.status = .run →
    b.ip.toNat < b.plen.toNat → b.plen.toNat ≤ P.pmax →
    Memory.read b.pmem b.ip.toNat = encode i → step b.state = exec i b.state) ∧
  ∀ (s : State) (i : Instr) (nbits : Nat), 6 ≤ nbits →
    decodeTableWord nbits (encode i).toNat = some i ∧
    step (s.withFetchWord nbits (encode i).toNat) = exec i (s.withFetchWord nbits (encode i).toNat)

/-- R100: the instruction cycle. No step outside RUN; a halt step, which changes only STATE, at or past
PLEN; otherwise the instruction of the word at the ip, opcode in [5:3] and operand in [2:0], which
completes or faults as a whole. -/
def Obligations.InstructionCycle : Prop :=
  (∀ s t : State, s.block.status ≠ .run → step s ≠ .next t) ∧
  (∀ (P : Config.Params) (b : Block P), b.status = .run → b.plen.toNat ≤ b.ip.toNat →
    step b.state = .next (Block.state { b with status := .halt })) ∧
  (∀ (P : Config.Params) (b : Block P) (w : InstrWord), b.status = .run →
    b.ip.toNat < b.plen.toNat → b.plen.toNat ≤ P.pmax → Memory.read b.pmem b.ip.toNat = w →
    step b.state = exec (decode w) b.state ∧
      opcOf w = w.extractLsb 5 3 ∧ (decode w).opd = w.extractLsb 2 0) ∧
  ∀ (P : Config.Params) (i : Instr) (b : Block P), b.status = .run →
    ∃ t : Block P, exec i b.state = .next t.state ∧
      ((t.status = .run ∧ t.faultCode = b.faultCode ∧ t.faultIp = b.faultIp) ∨
        (t.status = .fault ∧ t.regs = b.regs ∧ t.ip = b.ip ∧ t.outSeq = b.outSeq))

/-- R131: in IDLE, HALT and FAULT the core takes no step, so only a host command changes the state. That
each of the three stops has a name of its own is the model's choice (log 8). -/
def Obligations.NoStepOutsideRun : Prop :=
  ∀ s : State,
    (s.block.status = .idle → step s = .fault .idle) ∧
    (s.block.status = .halt → step s = .fault .halted) ∧
    (s.block.status = .fault → step s = .fault .faulted) ∧
    ∀ (e : Event) (t : State), s.block.status ≠ .run → act e s = .next t →
      ∃ cmd, e = .command cmd

/-! ### The 8 instructions

Every rule is stated for every instance: any XLEN of at least 4 and any PMAX. -/

/-- R101: ADV. -/
def Obligations.AdvRule : Prop :=
  (∀ d : Digit, decode (0b000#3 ++ d) = .adv d) ∧
  ∀ (P : Config.Params) (b : Block P),
    (∀ (o : Digit) (k : Word P), combo o b.regs = .ok k → 0 ≤ k.toInt →
      ∃ v : Word P, v.toInt = b.regs.a.toInt.tdiv (2 ^ k.toInt.toNat) ∧
        exec (.adv o) b.state = .next (Block.state { b with
          regs := { b.regs with a := v }, ip := b.ip + 1 })) ∧
    exec (.adv 7) b.state = .next (Block.state { b with
      status := .fault, faultCode := .comboReserved, faultIp := b.ip }) ∧
    (∀ o : Digit, (o = 4 ∧ b.regs.a.toInt < 0) ∨ (o = 5 ∧ b.regs.b.toInt < 0) ∨
        (o = 6 ∧ b.regs.c.toInt < 0) →
      exec (.adv o) b.state = .next (Block.state { b with
        status := .fault, faultCode := .negExponent, faultIp := b.ip })) ∧
    exec (.adv 0) b.state = .next (Block.state { b with ip := b.ip + 1 }) ∧
    (0 ≤ b.regs.a.toInt →
      exec (.adv 4) b.state = .next (Block.state { b with
        regs := { b.regs with a := 0 }, ip := b.ip + 1 })) ∧
    (b.regs.a.toInt = -7 → ∃ v : Word P, v.toInt = -3 ∧
      exec (.adv 1) b.state = .next (Block.state { b with
        regs := { b.regs with a := v }, ip := b.ip + 1 })) ∧
    (∀ (o : Digit) (k : Word P), combo o b.regs = .ok k → P.xlen ≤ k.toInt →
      exec (.adv o) b.state = .next (Block.state { b with
        regs := { b.regs with a := 0 }, ip := b.ip + 1 })) ∧
    (b.regs.a.toInt = 729 → ∃ v : Word P, v.toInt = 364 ∧
      exec (.adv 1) b.state = .next (Block.state { b with
        regs := { b.regs with a := v }, ip := b.ip + 1 }))

/-- R102: BXL. -/
def Obligations.BxlRule : Prop :=
  (∀ d : Digit, decode (0b001#3 ++ d) = .bxl d) ∧
  ∀ (P : Config.Params) (b : Block P),
    (∀ o : Digit, ∃ v : Word P,
      exec (.bxl o) b.state = .next (Block.state { b with
        regs := { b.regs with b := v }, ip := b.ip + 1 }) ∧
      v = b.regs.b ^^^ lit P o ∧ (lit P o).toInt = o.toNat ∧
      (∀ i, 3 ≤ i → v.getLsbD i = b.regs.b.getLsbD i) ∧
      (v.toInt < 0 ↔ b.regs.b.toInt < 0)) ∧
    exec (.bxl 0) b.state = .next (Block.state { b with ip := b.ip + 1 }) ∧
    (b.regs.b.toInt = -1 → ∃ v : Word P, v.toInt = -8 ∧
      exec (.bxl 7) b.state = .next (Block.state { b with
        regs := { b.regs with b := v }, ip := b.ip + 1 })) ∧
    (∀ (o : Digit) (t u : Block P), exec (.bxl o) b.state = .next t.state →
      exec (.bxl o) t.state = .next u.state → u.regs = b.regs) ∧
    (b.regs.b.toInt = 29 → ∃ v : Word P, v.toInt = 26 ∧
      exec (.bxl 7) b.state = .next (Block.state { b with
        regs := { b.regs with b := v }, ip := b.ip + 1 }))

/-- R103: BST. -/
def Obligations.BstRule : Prop :=
  (∀ d : Digit, decode (0b010#3 ++ d) = .bst d) ∧
  ∀ (P : Config.Params) (b : Block P),
    (∀ (o : Digit) (k : Word P), combo o b.regs = .ok k →
      ∃ v : Word P, v.toInt = k.toInt % 8 ∧ 0 ≤ v.toInt ∧ v.toInt ≤ 7 ∧
        exec (.bst o) b.state = .next (Block.state { b with
          regs := { b.regs with b := v }, ip := b.ip + 1 })) ∧
    exec (.bst 7) b.state = .next (Block.state { b with
      status := .fault, faultCode := .comboReserved, faultIp := b.ip }) ∧
    (∀ o : Digit, o.toNat ≤ 3 →
      exec (.bst o) b.state = .next (Block.state { b with
        regs := { b.regs with b := lit P o }, ip := b.ip + 1 })) ∧
    (∃ v : Word P, v.toInt = b.regs.b.toInt % 8 ∧
      exec (.bst 5) b.state = .next (Block.state { b with
        regs := { b.regs with b := v }, ip := b.ip + 1 })) ∧
    (b.regs.c.toInt = -1 → ∃ v : Word P, v.toInt = 7 ∧
      exec (.bst 6) b.state = .next (Block.state { b with
        regs := { b.regs with b := v }, ip := b.ip + 1 })) ∧
    (b.regs.a.toInt = 10 → ∃ v : Word P, v.toInt = 0 ∧
      exec (.bst 0) b.state = .next (Block.state { b with
        regs := { b.regs with b := v }, ip := b.ip + 1 })) ∧
    (b.regs.c.toInt = 9 → ∃ v : Word P, v.toInt = 1 ∧
      exec (.bst 6) b.state = .next (Block.state { b with
        regs := { b.regs with b := v }, ip := b.ip + 1 }))

/-- R104: JNZ. The last three clauses are its corner cases: a negative A jumps, a target at or past PLEN
makes the next step a halt step, and a jump to itself with A non-zero is a step to the same state. -/
def Obligations.JnzRule : Prop :=
  (∀ d : Digit, decode (0b011#3 ++ d) = .jnz d) ∧
  ∀ (P : Config.Params) (b : Block P) (o : Digit),
    (o.setWidth P.ipw).toNat = o.toNat ∧
    (b.regs.a ≠ 0 →
      exec (.jnz o) b.state = .next (Block.state { b with ip := o.setWidth P.ipw })) ∧
    (b.regs.a = 0 → exec (.jnz o) b.state = .next (Block.state { b with ip := b.ip + 1 })) ∧
    (b.regs.a.toInt < 0 →
      exec (.jnz o) b.state = .next (Block.state { b with ip := o.setWidth P.ipw })) ∧
    (b.status = .run → b.regs.a ≠ 0 → b.plen.toNat ≤ o.toNat →
      ∃ t : Block P, exec (.jnz o) b.state = .next t.state ∧
        step t.state = .next (Block.state { t with status := .halt })) ∧
    (b.status = .run → b.regs.a ≠ 0 → b.ip.toNat < b.plen.toNat → b.plen.toNat ≤ P.pmax →
      o.toNat = b.ip.toNat → Memory.read b.pmem b.ip.toNat = encode (.jnz o) →
      ∀ n, Host.Core.run Sys2Proof.core n b.state = .next b.state)

/-- R105: BXC. The operand field changes nothing, 7 included. -/
def Obligations.BxcRule : Prop :=
  (∀ d : Digit, decode (0b100#3 ++ d) = .bxc d) ∧
  ∀ (P : Config.Params) (b : Block P) (o : Digit),
    (∃ v : Word P,
      exec (.bxc o) b.state = .next (Block.state { b with
        regs := { b.regs with b := v }, ip := b.ip + 1 }) ∧
      v = b.regs.b ^^^ b.regs.c ∧
      (v.toInt < 0 ↔ (b.regs.b.toInt < 0 ∧ 0 ≤ b.regs.c.toInt) ∨
        (0 ≤ b.regs.b.toInt ∧ b.regs.c.toInt < 0))) ∧
    (b.regs.b = b.regs.c →
      exec (.bxc o) b.state = .next (Block.state { b with
        regs := { b.regs with b := 0 }, ip := b.ip + 1 })) ∧
    (b.regs.c = 0 → exec (.bxc o) b.state = .next (Block.state { b with ip := b.ip + 1 })) ∧
    (b.regs.b.toInt = -5 → b.regs.c.toInt = 3 → ∃ v : Word P, v.toInt = -8 ∧
      exec (.bxc o) b.state = .next (Block.state { b with
        regs := { b.regs with b := v }, ip := b.ip + 1 })) ∧
    (b.regs.b.toInt = 2024 → b.regs.c.toInt = 43690 → ∃ v : Word P, v.toInt = 44354 ∧
      exec (.bxc o) b.state = .next (Block.state { b with
        regs := { b.regs with b := v }, ip := b.ip + 1 }))

/-- R106: OUT. -/
def Obligations.OutRule : Prop :=
  (∀ d : Digit, decode (0b101#3 ++ d) = .out d) ∧
  ∀ (P : Config.Params) (b : Block P),
    (∀ (o : Digit) (k : Word P), combo o b.regs = .ok k →
      ∃ d : Digit, (d.toNat : Int) = k.toInt % 8 ∧
        exec (.out o) b.state = .next (Block.state { b with
          outSeq := b.outSeq ++ [d], ip := b.ip + 1 })) ∧
    exec (.out 7) b.state = .next (Block.state { b with
      status := .fault, faultCode := .comboReserved, faultIp := b.ip }) ∧
    (∀ o : Digit, o.toNat ≤ 3 →
      exec (.out o) b.state = .next (Block.state { b with
        outSeq := b.outSeq ++ [o], ip := b.ip + 1 })) ∧
    (b.regs.b.toInt = -13 →
      exec (.out 5) b.state = .next (Block.state { b with
        outSeq := b.outSeq ++ [3], ip := b.ip + 1 })) ∧
    (b.regs.a.toInt = 364 →
      exec (.out 4) b.state = .next (Block.state { b with
        outSeq := b.outSeq ++ [4], ip := b.ip + 1 }))

/-- R107: BDV. The exponent is the old B when `opd = 5`. -/
def Obligations.BdvRule : Prop :=
  (∀ d : Digit, decode (0b110#3 ++ d) = .bdv d) ∧
  ∀ (P : Config.Params) (b : Block P),
    (∀ (o : Digit) (k : Word P), combo o b.regs = .ok k → 0 ≤ k.toInt →
      ∃ v : Word P, v.toInt = b.regs.a.toInt.tdiv (2 ^ k.toInt.toNat) ∧
        exec (.bdv o) b.state = .next (Block.state { b with
          regs := { b.regs with b := v }, ip := b.ip + 1 })) ∧
    exec (.bdv 7) b.state = .next (Block.state { b with
      status := .fault, faultCode := .comboReserved, faultIp := b.ip }) ∧
    (∀ o : Digit, (o = 4 ∧ b.regs.a.toInt < 0) ∨ (o = 5 ∧ b.regs.b.toInt < 0) ∨
        (o = 6 ∧ b.regs.c.toInt < 0) →
      exec (.bdv o) b.state = .next (Block.state { b with
        status := .fault, faultCode := .negExponent, faultIp := b.ip })) ∧
    exec (.bdv 0) b.state = .next (Block.state { b with
      regs := { b.regs with b := b.regs.a }, ip := b.ip + 1 }) ∧
    (0 ≤ b.regs.b.toInt →
      ∃ v : Word P, v.toInt = b.regs.a.toInt.tdiv (2 ^ b.regs.b.toInt.toNat) ∧
        exec (.bdv 5) b.state = .next (Block.state { b with
          regs := { b.regs with b := v }, ip := b.ip + 1 })) ∧
    (∀ (o : Digit) (k : Word P), combo o b.regs = .ok k → P.xlen ≤ k.toInt →
      exec (.bdv o) b.state = .next (Block.state { b with
        regs := { b.regs with b := 0 }, ip := b.ip + 1 })) ∧
    (b.regs.a.toInt = 729 → ∃ v : Word P, v.toInt = 91 ∧
      exec (.bdv 3) b.state = .next (Block.state { b with
        regs := { b.regs with b := v }, ip := b.ip + 1 }))

/-- R108: CDV. The exponent is the old C when `opd = 6`. -/
def Obligations.CdvRule : Prop :=
  (∀ d : Digit, decode (0b111#3 ++ d) = .cdv d) ∧
  ∀ (P : Config.Params) (b : Block P),
    (∀ (o : Digit) (k : Word P), combo o b.regs = .ok k → 0 ≤ k.toInt →
      ∃ v : Word P, v.toInt = b.regs.a.toInt.tdiv (2 ^ k.toInt.toNat) ∧
        exec (.cdv o) b.state = .next (Block.state { b with
          regs := { b.regs with c := v }, ip := b.ip + 1 })) ∧
    exec (.cdv 7) b.state = .next (Block.state { b with
      status := .fault, faultCode := .comboReserved, faultIp := b.ip }) ∧
    (∀ o : Digit, (o = 4 ∧ b.regs.a.toInt < 0) ∨ (o = 5 ∧ b.regs.b.toInt < 0) ∨
        (o = 6 ∧ b.regs.c.toInt < 0) →
      exec (.cdv o) b.state = .next (Block.state { b with
        status := .fault, faultCode := .negExponent, faultIp := b.ip })) ∧
    exec (.cdv 0) b.state = .next (Block.state { b with
      regs := { b.regs with c := b.regs.a }, ip := b.ip + 1 }) ∧
    (0 ≤ b.regs.c.toInt →
      ∃ v : Word P, v.toInt = b.regs.a.toInt.tdiv (2 ^ b.regs.c.toInt.toNat) ∧
        exec (.cdv 6) b.state = .next (Block.state { b with
          regs := { b.regs with c := v }, ip := b.ip + 1 })) ∧
    (b.regs.a.toInt = -729 → ∃ v : Word P, v.toInt = -91 ∧
      exec (.cdv 3) b.state = .next (Block.state { b with
        regs := { b.regs with c := v }, ip := b.ip + 1 })) ∧
    (b.regs.a.toInt = 100 → b.regs.b.toInt = 2 → ∃ v : Word P, v.toInt = 25 ∧
      exec (.cdv 5) b.state = .next (Block.state { b with
        regs := { b.regs with c := v }, ip := b.ip + 1 }))

/-! ### Frames -/

/-- The frame of the six instructions whose destination is a register: the other registers, the output,
PLEN and all of program memory are unchanged, and so are the status registers unless the instruction
took a fault, which BXL and BXC never do. -/
def Obligations.FrameRegister : Prop :=
  ∀ (P : Config.Params) (o : Digit) (b t : Block P),
    (exec (.adv o) b.state = .next t.state → t.regs.b = b.regs.b ∧ t.regs.c = b.regs.c ∧
      t.outSeq = b.outSeq ∧ KeepsProgram b t ∧ (KeepsStatus b t ∨ ∃ c, TookFault c b t)) ∧
    (exec (.bdv o) b.state = .next t.state → t.regs.a = b.regs.a ∧ t.regs.c = b.regs.c ∧
      t.outSeq = b.outSeq ∧ KeepsProgram b t ∧ (KeepsStatus b t ∨ ∃ c, TookFault c b t)) ∧
    (exec (.cdv o) b.state = .next t.state → t.regs.a = b.regs.a ∧ t.regs.b = b.regs.b ∧
      t.outSeq = b.outSeq ∧ KeepsProgram b t ∧ (KeepsStatus b t ∨ ∃ c, TookFault c b t)) ∧
    (exec (.bst o) b.state = .next t.state → t.regs.a = b.regs.a ∧ t.regs.c = b.regs.c ∧
      t.outSeq = b.outSeq ∧ KeepsProgram b t ∧
      (KeepsStatus b t ∨ TookFault .comboReserved b t)) ∧
    (exec (.bxl o) b.state = .next t.state → t.regs.a = b.regs.a ∧ t.regs.c = b.regs.c ∧
      t.outSeq = b.outSeq ∧ KeepsProgram b t ∧ KeepsStatus b t) ∧
    (exec (.bxc o) b.state = .next t.state → t.regs.a = b.regs.a ∧ t.regs.c = b.regs.c ∧
      t.outSeq = b.outSeq ∧ KeepsProgram b t ∧ KeepsStatus b t)

/-- The frame of OUT and JNZ: no register changes; JNZ changes the ip alone, OUT the output too, of
which the old digits are kept. -/
def Obligations.FrameOutJnz : Prop :=
  ∀ (P : Config.Params) (o : Digit) (b t : Block P),
    (exec (.out o) b.state = .next t.state → t.regs = b.regs ∧ KeepsProgram b t ∧
      ((KeepsStatus b t ∧ ∃ d, t.outSeq = b.outSeq ++ [d]) ∨ TookFault .comboReserved b t)) ∧
    (exec (.jnz o) b.state = .next t.state → t.regs = b.regs ∧ KeepsProgram b t ∧
      KeepsStatus b t ∧ t.outSeq = b.outSeq)

/-! ### Faults -/

/-- R120: exactly which instruction raises which fault, the code numbers, and what is recorded. Code 3 is
never written: the type has no such value. -/
def Obligations.FaultsExactly : Prop :=
  FaultCode.none.bits = 0 ∧ FaultCode.comboReserved.bits = 1 ∧ FaultCode.negExponent.bits = 2 ∧
  (∀ f : FaultCode, f.bits ≠ 3) ∧
  ∀ (P : Config.Params) (i : Instr) (b t : Block P), b.status = .run →
    exec i b.state = .next t.state →
    ((t.status = .fault ∧ t.faultCode = .comboReserved ∧ t.faultIp = b.ip) ↔
      i ∈ [Instr.adv 7, .bst 7, .out 7, .bdv 7, .cdv 7]) ∧
    ((t.status = .fault ∧ t.faultCode = .negExponent ∧ t.faultIp = b.ip) ↔
      i ∈ [Instr.adv i.opd, .bdv i.opd, .cdv i.opd] ∧
        ∃ k : Word P, combo i.opd b.regs = .ok k ∧ k.toInt < 0) ∧
    (t.status = .fault → t.faultCode ≠ .none)

/-- R122: fault entry is precise: STATE, FAULT_CODE (with the cause: operand 7, else the exponent) and
FAULT_IP are written, everything else is as before the step, and the core takes no further step. -/
def Obligations.FaultEntryPrecise : Prop :=
  ∀ (P : Config.Params) (i : Instr) (b t : Block P), b.status = .run →
    exec i b.state = .next t.state → t.status = .fault →
    t = { b with
      status := .fault
      faultCode := if i.opd = 7 then .comboReserved else .negExponent
      faultIp := b.ip } ∧
    ∀ u, step t.state ≠ .next u

/-- R123: one fault at most, COMBO_RESERVED first: with operand 7 a division reports it whatever the
registers hold, and no instruction but the divisions can report NEG_EXPONENT. -/
def Obligations.OneFault : Prop :=
  ∀ (P : Config.Params) (b : Block P),
    (∀ i ∈ [Instr.adv 7, .bdv 7, .cdv 7],
      exec i b.state = .next (Block.state { b with
        status := .fault, faultCode := .comboReserved, faultIp := b.ip })) ∧
    ∀ (i : Instr) (t : Block P), b.status = .run → b.faultCode = .none →
      exec i b.state = .next t.state → t.faultCode = .negExponent →
      i ∈ [Instr.adv i.opd, .bdv i.opd, .cdv i.opd] ∧ i.opd ≠ 7

/-- R125: a fault is held. No core step leaves FAULT, FAULT_CODE and FAULT_IP stay through every host
command but START and RESET, START (of values that fit) begins a new run and RESET returns to IDLE. -/
def Obligations.FaultHeld : Prop :=
  ∀ (P : Config.Params) (b : Block P), b.status = .fault →
    (∀ u, step b.state ≠ .next u) ∧
    (∀ (e : Event) (t : Block P), act e b.state = .next t.state →
      (t.status = .fault ∧ t.faultCode = b.faultCode ∧ t.faultIp = b.faultIp) ∨
      (∃ x y z, e = .command (.start x y z)) ∨ (∃ draw, e = .command (.reset draw))) ∧
    (∀ x y z : Int, fitsXlen P x → fitsXlen P y → fitsXlen P z →
      ∃ t : Block P, act (.command (.start x y z)) b.state = .next t.state ∧ t.status = .run ∧
        t.faultCode = .none ∧ t.faultIp = 0) ∧
    ∀ draw : Draw, ∃ t : Block P, act (.command (.reset draw)) b.state = .next t.state ∧
      t.status = .idle ∧ t.faultCode = .none ∧ t.faultIp = 0

/-! ### Whole-machine rules -/

/-- The state after reset or power-on meets the invariant, whatever A, B, C and program memory hold (the
zeros of `State.reset` are the model's choice, log 4 and log 6). -/
def Obligations.ResetMeetsInv : Prop :=
  State.reset.Inv ∧ ∀ (P : Config.Params) (draw : Draw), (powerOn P draw).Inv

/-- Every core step keeps the parameters and the invariant: program memory canonical and in range, PLEN
at most PMAX, the ip in `0 .. max(PLEN, 7)` during a run, the fault registers in step with STATE. -/
def Obligations.StepKeepsInv : Prop :=
  ∀ s t : State, s.Inv → step s = .next t → t.params = s.params ∧ t.Inv

/-- Every event, a core step or a host command, keeps the parameters and the invariant. -/
def Obligations.EventsKeepInv : Prop :=
  ∀ (e : Event) (s t : State), s.Inv → act e s = .next t → t.params = s.params ∧ t.Inv

/-- One step of two blocks that hold the same program below PLEN and agree on everything the host
observes, whatever program memory holds above PLEN (U6): both step to blocks that agree in the same way
and deliver the same digit, or both stop alike. -/
def Obligations.StepKeepsAgreement : Prop :=
  ∀ (P : Config.Params) (b b' : Block P), SameProgram b b' → b.observe = b'.observe →
    (∀ u : Block P, step b.state = .next u.state → ∃ u' : Block P,
      step b'.state = .next u'.state ∧ SameProgram u u' ∧ u.observe = u'.observe) ∧
    (∀ r, step b.state = .fault r → step b'.state = .fault r) ∧
    outPort b.state = outPort b'.state

/-- In RUN a step always has a next state, from every state that meets the invariant, and so after any
events from power-on: the core never fetches where there is no cell. -/
def Obligations.RunNeverStuck : Prop :=
  (∀ s : State, s.Inv → s.block.status = .run → ∃ u, step s = .next u) ∧
  ∀ (P : Config.Params) (es : List Event) (draw : Draw) (t : State),
    acts es (powerOn P draw) = .next t → t.block.status = .run → ∃ u, step t = .next u

/-- R24: during a run the ip starts at 0, lies in `0 .. max(PLEN, 7)`, never wraps, and fits in IPW bits,
which is the smallest such width. A run is START from a state that meets the invariant, then core
steps. -/
def Obligations.IpRange : Prop :=
  ∀ P : Config.Params,
    (∀ (b t u : Block P) (x y z : Int) (n : Nat), b.Inv →
      hostStart x y z b.state = .next t.state →
      Host.Core.run Sys2Proof.core n t.state = .next u.state →
      t.ip = 0 ∧ u.ip.toNat ≤ max u.plen.toNat 7 ∧
      (u.status = .run → u.ip.toNat < u.plen.toNat → (ipInc u).toNat = u.ip.toNat + 1)) ∧
    max P.pmax 7 < 2 ^ P.ipw ∧ 3 ≤ P.ipw ∧ ∀ n, max P.pmax 7 < 2 ^ n → P.ipw ≤ n

/-- R51: no core step writes program memory or PLEN, LOAD has no move in RUN, and of all events only LOAD
and RESET change program memory. -/
def Obligations.ProgramImmutable : Prop :=
  ∀ P : Config.Params,
    (∀ b t : Block P, step b.state = .next t.state → t.pmem = b.pmem ∧ t.plen = b.plen) ∧
    (∀ (ws : List InstrWord) (b t : Block P), b.status = .run →
      hostLoad ws b.state ≠ .next t.state) ∧
    ∀ (e : Event) (b t : Block P), act e b.state = .next t.state →
      t.pmem ≠ b.pmem ∨ t.plen ≠ b.plen →
      (∃ ws, e = .command (.load ws) ∧ b.status ≠ .run) ∨ ∃ draw, e = .command (.reset draw)

/-- Reading program memory after writing it, and the canonical form, which every write keeps; in it,
equal contents are equal data. The canonical form is the model's (log 7). -/
def Obligations.MemoryLaws : Prop :=
  (∀ (m : Memory) (a b : Nat) (v : InstrWord),
    Memory.read (Memory.write m a v) b = if b = a then v else Memory.read m b) ∧
  (∀ (m : Memory) (a : Nat) (v : InstrWord), Memory.wf m → Memory.wf (Memory.write m a v)) ∧
  ∀ m m' : Memory, Memory.wf m → Memory.wf m' →
    (∀ i, Memory.read m i = Memory.read m' i) → m = m'

/-- R145, R27: a step appends to OUT_SEQ exactly the digit its output port delivers, and the digits
delivered since START are OUT_SEQ; the port delivers a digit exactly when the step executes an OUT that
does not fault. -/
def Obligations.OutputStream : Prop :=
  ∀ P : Config.Params,
    (∀ b t : Block P, step b.state = .next t.state →
      t.outSeq = b.outSeq ++ (outPort b.state).toList) ∧
    (∀ (b t u : Block P) (x y z : Int) (n : Nat), hostStart x y z b.state = .next t.state →
      Host.Core.run Sys2Proof.core n t.state = .next u.state →
      u.outSeq = delivered n t.state) ∧
    ∀ (b : Block P) (d : Digit), outPort b.state = some d ↔
      b.status = .run ∧ b.ip.toNat < b.plen.toNat ∧ b.ip.toNat < P.pmax ∧
        ∃ (o : Digit) (k : Word P),
          Memory.read b.pmem b.ip.toNat = encode (.out o) ∧ combo o b.regs = .ok k ∧
          (d.toNat : Int) = k.toInt % 8

/-- R21, R22: which instruction writes which register, each at most one, and none but OUT the output. -/
def Obligations.WriteTable : Prop :=
  ∀ (P : Config.Params) (i : Instr) (b t : Block P), exec i b.state = .next t.state →
    (t.regs.a ≠ b.regs.a → i = .adv i.opd) ∧
    (t.regs.b ≠ b.regs.b → i ∈ [Instr.bxl i.opd, .bst i.opd, .bxc i.opd, .bdv i.opd]) ∧
    (t.regs.c ≠ b.regs.c → i = .cdv i.opd) ∧
    (t.outSeq ≠ b.outSeq → i = .out i.opd) ∧
    ∃ d : Reg, ∀ e : Reg, e ≠ d → t.regs.read e = b.regs.read e

/-- R154: ADV with an exponent of at least 1 makes |A| strictly smaller, until A is 0, where it stays;
with exponent 0 it leaves A unchanged. -/
def Obligations.AdvShrinksA : Prop :=
  ∀ (P : Config.Params) (o : Digit) (b : Block P) (k : Word P), combo o b.regs = .ok k →
    0 ≤ k.toInt →
    ∃ t : Block P, exec (.adv o) b.state = .next t.state ∧
      (k.toInt = 0 → t.regs.a = b.regs.a) ∧
      (1 ≤ k.toInt → b.regs.a ≠ 0 → t.regs.a.toInt.natAbs < b.regs.a.toInt.natAbs) ∧
      (b.regs.a = 0 → t.regs.a = 0)

/-- R154: once A is 0 every JNZ falls through, so the run ends, in HALT or FAULT, within as many steps as
pairs remain and one halt step, with A still 0. -/
def Obligations.ZeroAEndsRun : Prop :=
  ∀ (P : Config.Params) (b : Block P), b.Inv → b.status = .run → b.regs.a = 0 →
    ∃ (n : Nat) (t : Block P), n ≤ b.plen.toNat - b.ip.toNat + 1 ∧
      Host.Core.run Sys2Proof.core n b.state = .next t.state ∧ t.ended ∧ t.regs.a = 0 ∧
      (t.status = .halt → t.plen.toNat ≤ t.ip.toNat)

/-- R26's "written by" column: what writes STATUS, FAULT_CODE, FAULT_IP and PLEN, and with which
values. -/
def Obligations.StatusWrittenBy : Prop :=
  ∀ (P : Config.Params) (e : Event) (b t : Block P), act e b.state = .next t.state →
    (t.status ≠ b.status →
      (e = .coreStep ∧ b.status = .run ∧ (t.status = .halt ∨ t.status = .fault)) ∨
      (∃ x y z, e = .command (.start x y z) ∧ b.status ≠ .run ∧ t.status = .run) ∨
      (∃ draw, e = .command (.reset draw) ∧ t.status = .idle)) ∧
    (t.faultCode ≠ b.faultCode ∨ t.faultIp ≠ b.faultIp →
      (e = .coreStep ∧ t.status = .fault ∧ t.faultCode ≠ .none ∧ t.faultIp = b.ip ∧
        b.ip.toNat < b.plen.toNat) ∨
      (((∃ x y z, e = .command (.start x y z)) ∨ ∃ draw, e = .command (.reset draw)) ∧
        t.faultCode = .none ∧ t.faultIp = 0)) ∧
    (t.plen ≠ b.plen →
      (∃ ws, e = .command (.load ws) ∧ t.plen.toNat = ws.length ∧ t.plen.toNat ≤ P.pmax) ∨
      ∃ draw, e = .command (.reset draw) ∧ t.plen = 0)

/-- R152, U6: a run is determined by its program below PLEN and its START values. Two blocks that agree
on those, whatever else they held before, give the same observation after every number of steps, the
same stop, and the same output stream. -/
def Obligations.RunDetermined : Prop :=
  ∀ (P : Config.Params) (b b' t t' : Block P) (x y z : Int) (n : Nat), SameProgram b b' →
    hostStart x y z b.state = .next t.state → hostStart x y z b'.state = .next t'.state →
    (∀ u : Block P, Host.Core.run Sys2Proof.core n t.state = .next u.state → ∃ u' : Block P,
      Host.Core.run Sys2Proof.core n t'.state = .next u'.state ∧ u'.observe = u.observe) ∧
    (∀ r, Host.Core.run Sys2Proof.core n t.state = .fault r →
      Host.Core.run Sys2Proof.core n t'.state = .fault r) ∧
    delivered n t.state = delivered n t'.state

/-! ### The host interface -/

/-- R140, R141: RESET in any state, a run included, leaves what power-on leaves. A, B, C and program
memory are unspecified: they are what the draw gives, and every register file and every program memory
(in canonical form, inside its range) is given by some draw. An abandoned run takes no further step. -/
def Obligations.ResetCommand : Prop :=
  ∀ (P : Config.Params) (b : Block P),
    (∀ draw : Draw, ∃ t : Block P,
      act (.command (.reset draw)) b.state = .next t.state ∧ t.state = powerOn P draw ∧
      t.status = .idle ∧ t.faultCode = .none ∧ t.faultIp = 0 ∧ t.plen = 0 ∧ t.ip = 0 ∧
      t.outSeq = [] ∧ ∀ u, step t.state ≠ .next u) ∧
    ∀ (r : Regs P) (m : Memory), Memory.wf m → (∀ x ∈ m, x.1 < P.pmax) →
      ∃ (draw : Draw) (t : Block P), act (.command (.reset draw)) b.state = .next t.state ∧
        t.regs = r ∧ t.pmem = m

/-- R142: LOAD under its precondition: the words it names, PLEN, and nothing else. -/
def Obligations.LoadCommand : Prop :=
  ∀ (P : Config.Params) (ws : List InstrWord) (b : Block P), b.status ≠ .run →
    ws.length ≤ P.pmax →
    ∃ t : Block P, act (.command (.load ws)) b.state = .next t.state ∧
      t.plen.toNat = ws.length ∧
      (∀ i (h : i < ws.length), Memory.read t.pmem i = ws[i]) ∧
      (∀ i, ws.length ≤ i → Memory.read t.pmem i = Memory.read b.pmem i) ∧
      t.status = b.status ∧ t.faultCode = b.faultCode ∧ t.faultIp = b.faultIp ∧
      t.regs = b.regs ∧ t.ip = b.ip ∧ t.outSeq = b.outSeq

/-- R143: START under its precondition and with values that fit in XLEN bits (R146), and the state it
leaves does not depend on what A, B and C held before: no instruction of the run reads an unspecified
register. -/
def Obligations.StartCommand : Prop :=
  ∀ (P : Config.Params) (x y z : Int) (b : Block P), b.status ≠ .run →
    fitsXlen P x → fitsXlen P y → fitsXlen P z →
    (∃ r : Regs P, r.a.toInt = x ∧ r.b.toInt = y ∧ r.c.toInt = z ∧
      act (.command (.start x y z)) b.state = .next (Block.state { b with
        regs := r, ip := 0, outSeq := [], faultCode := .none, faultIp := 0, status := .run })) ∧
    ∀ old : Regs P, act (.command (.start x y z)) (Block.state { b with regs := old }) =
      act (.command (.start x y z)) b.state

/-- R29, R144: the host register map. Narrower registers are zero-extended to XLEN bits; A, B and C are
returned as their patterns, after RESET too; READ is legal in any state and changes nothing. For
FAULT_IP, PLEN and ip the premise is that they are no wider than XLEN, as the map's "narrower" says
(log 16). -/
def Obligations.ReadCommand : Prop :=
  ∀ (P : Config.Params) (b : Block P),
    (∀ i : Digit, act (.command (.read i)) b.state = .next b.state) ∧
    (hostRead 0 b).toNat = b.status.bits.toNat ∧
    (hostRead 1 b).toNat = b.faultCode.bits.toNat ∧
    (P.ipw ≤ P.xlen → (hostRead 2 b).toNat = b.faultIp.toNat ∧
      (hostRead 3 b).toNat = b.plen.toNat ∧ (hostRead 7 b).toNat = b.ip.toNat) ∧
    hostRead 4 b = b.regs.a ∧ hostRead 5 b = b.regs.b ∧ hostRead 6 b = b.regs.c ∧
    RunState.idle.bits = 0 ∧ RunState.run.bits = 1 ∧ RunState.halt.bits = 2 ∧
    RunState.fault.bits = 3

/-- R146: a host that breaks a duty has no transition: LOAD or START in RUN, LOAD with more than PMAX
words, and START with a value that does not fit in XLEN bits. That each is a refusal under a name of its
own is the model's choice (log 12); the rule says only that there is no transition. -/
def Obligations.HostDuties : Prop :=
  ∀ s : State,
    (s.block.status = .run →
      (∀ ws, act (.command (.load ws)) s = .refused .loadWhileRunning) ∧
      ∀ x y z, act (.command (.start x y z)) s = .refused .startWhileRunning) ∧
    (s.block.status ≠ .run →
      (∀ ws : List InstrWord, s.params.pmax < ws.length →
        act (.command (.load ws)) s = .refused .loadTooLong) ∧
      ∀ x y z : Int, ¬ (fitsXlen s.params x ∧ fitsXlen s.params y ∧ fitsXlen s.params z) →
        act (.command (.start x y z)) s = .refused .startOutOfRange)

/-- R148: with PLEN = 0 the first step after START is a halt step; the run ends in HALT with A, B and C
as START set them, ip = 0 and the output empty. -/
def Obligations.EmptyProgramHalts : Prop :=
  ∀ (P : Config.Params) (b t : Block P) (x y z : Int), b.plen = 0 →
    hostStart x y z b.state = .next t.state →
    ∃ u : Block P, step t.state = .next u.state ∧ u.status = .halt ∧ u.regs = t.regs ∧
      u.regs.a.toInt = x ∧ u.regs.b.toInt = y ∧ u.regs.c.toInt = z ∧ u.ip = 0 ∧ u.outSeq = [] ∧
      ∀ v, step u.state ≠ .next v

/-- R147: the boot sequence. RESET, LOAD and START, from any state and whatever RESET leaves in the
registers and in program memory, begin the run: at pair 0, with the program loaded below PLEN (nothing is
said of what lies above, R46), the output empty, and the registers as START set them. -/
def Obligations.BootSequence : Prop :=
  ∀ (P : Config.Params) (ws : List InstrWord) (x y z : Int) (b : Block P) (draw : Draw),
    ws.length ≤ P.pmax → fitsXlen P x → fitsXlen P y → fitsXlen P z →
    ∃ t : Block P,
      acts [.command (.reset draw), .command (.load ws), .command (.start x y z)] b.state =
        .next t.state ∧
      t.status = .run ∧ t.faultCode = .none ∧ t.faultIp = 0 ∧ t.ip = 0 ∧ t.outSeq = [] ∧
      t.regs.a.toInt = x ∧ t.regs.b.toInt = y ∧ t.regs.c.toInt = z ∧
      t.plen.toNat = ws.length ∧ ∀ i (h : i < ws.length), Memory.read t.pmem i = ws[i]
end

