-- ==== Sys2Proof/Laws/Memory.lean ====
section
/-! SUPPORT. Program memory: reading after writing, and that every operation keeps the canonical form. -/

namespace Sys2Proof.Machine

@[simp] theorem Memory.read_nil (a : Nat) : Memory.read [] a = unlistedWord := rfl

/-! ### Putting a cell in -/

theorem Memory.read_insert (m : Memory) (a b : Nat) (v : InstrWord) :
    Memory.read (Memory.insert m a v) b = if b = a then v else Memory.read m b := by
  induction m with
  | nil => simp [Memory.insert, Memory.read, eq_comm]
  | cons x m ih =>
    obtain ⟨i, w⟩ := x
    by_cases hba : b = a
    · subst hba
      simp only [Memory.insert]
      split
      · simp [Memory.read]
      · split
        · simp [Memory.read]
        · have : i ≠ b := by omega
          simp [Memory.read, this, ih]
    · simp only [Memory.insert]
      split
      · simp [Memory.read, Ne.symm hba]
      · split
        · rename_i hai
          subst hai
          simp [Memory.read, Ne.symm hba]
        · simp [Memory.read, ih, hba]

/-- The cells after putting one in: the new one, or an old one. -/
theorem Memory.mem_insert {m : Memory} {a : Nat} {v : InstrWord} {x : PCell}
    (h : x ∈ Memory.insert m a v) : x = (a, v) ∨ x ∈ m := by
  induction m with
  | nil => simpa [Memory.insert] using h
  | cons y m ih =>
    simp only [Memory.insert] at h
    split at h
    · simpa using h
    · split at h
      · simp only [List.mem_cons] at h ⊢
        exact h.imp_right .inr
      · simp only [List.mem_cons] at h ⊢
        exact h.elim (fun hy => .inr (.inl hy)) fun hm => (ih hm).imp_right .inr

theorem Memory.insert_rising {m : Memory} (a : Nat) (v : InstrWord)
    (h : m.Pairwise fun x y => x.1 < y.1) :
    (Memory.insert m a v).Pairwise fun x y => x.1 < y.1 := by
  induction m with
  | nil => simp [Memory.insert]
  | cons y m ih =>
    have hy := List.pairwise_cons.1 h
    simp only [Memory.insert]
    split
    · rename_i hlt
      refine List.pairwise_cons.2 ⟨fun x hx => ?_, h⟩
      rcases List.mem_cons.1 hx with rfl | hx
      · exact hlt
      · exact Nat.lt_trans hlt (hy.1 x hx)
    · split
      · rename_i heq
        subst heq
        exact List.pairwise_cons.2 hy
      · refine List.pairwise_cons.2 ⟨fun x hx => ?_, ih hy.2⟩
        rcases Memory.mem_insert hx with rfl | hx
        · show y.1 < a
          omega
        · exact hy.1 x hx

/-! ### Taking a cell off -/

theorem Memory.read_erase (m : Memory) (a b : Nat) :
    Memory.read (Memory.erase m a) b = if b = a then unlistedWord else Memory.read m b := by
  induction m with
  | nil => simp [Memory.erase]
  | cons x m ih =>
    obtain ⟨i, w⟩ := x
    by_cases hia : i = a
    · subst hia
      have : Memory.erase ((i, w) :: m) i = Memory.erase m i := by simp [Memory.erase]
      rw [this, ih]
      split
      · rfl
      · rename_i hb
        simp [Memory.read, Ne.symm hb]
    · have : Memory.erase ((i, w) :: m) a = (i, w) :: Memory.erase m a := by
        simp [Memory.erase, hia]
      rw [this, Memory.read, Memory.read, ih]
      split
      · rename_i hib
        subst hib
        simp [hia]
      · rfl

/-! ### Writing a cell -/

/-- A read after a write: the word at its index, the old word elsewhere. -/
theorem Memory.read_write (m : Memory) (a b : Nat) (v : InstrWord) :
    Memory.read (Memory.write m a v) b = if b = a then v else Memory.read m b := by
  unfold Memory.write
  split
  · rename_i hv
    rw [Memory.read_erase, hv]
  · exact Memory.read_insert m a b v

/-- The cells of a written memory: the new one, or an old one. -/
theorem Memory.mem_write {m : Memory} {a : Nat} {v : InstrWord} {x : PCell}
    (h : x ∈ Memory.write m a v) : x = (a, v) ∨ x ∈ m := by
  unfold Memory.write at h
  split at h
  · exact .inr (List.mem_filter.1 h).1
  · exact Memory.mem_insert h

/-- A write keeps the canonical form. -/
theorem Memory.write_keeps_wf {m : Memory} (a : Nat) (v : InstrWord) (h : Memory.wf m) :
    Memory.wf (Memory.write m a v) := by
  unfold Memory.write
  split
  · exact ⟨h.1.filter _, fun x hx => h.2 x (List.mem_filter.1 hx).1⟩
  · rename_i hv
    refine ⟨Memory.insert_rising a v h.1, fun x hx => ?_⟩
    rcases Memory.mem_insert hx with rfl | hx
    · exact hv
    · exact h.2 x hx

/-! ### LOAD's loop -/

/-- LOAD's loop keeps the canonical form. -/
theorem Memory.load_keeps_wf {m : Memory} (base : Nat) (ws : List InstrWord) (h : Memory.wf m) :
    Memory.wf (Memory.load m base ws) := by
  induction ws generalizing m base with
  | nil => exact h
  | cons w ws ih => exact ih _ (Memory.write_keeps_wf base w h)

/-- LOAD's loop writes only the cells it names. -/
theorem Memory.mem_load {m : Memory} {base : Nat} {ws : List InstrWord} {x : PCell}
    (h : x ∈ Memory.load m base ws) : x ∈ m ∨ x.1 < base + ws.length := by
  induction ws generalizing m base with
  | nil => exact .inl h
  | cons w ws ih =>
    simp only [List.length_cons]
    rcases ih h with h | h
    · rcases Memory.mem_write h with rfl | h
      · right
        show base < _
        omega
      · exact .inl h
    · right
      omega

/-- Below its base, and from its end on, LOAD's loop leaves every cell alone. -/
theorem Memory.read_load_outside (m : Memory) (base : Nat) (ws : List InstrWord) {i : Nat}
    (h : i < base ∨ base + ws.length ≤ i) :
    Memory.read (Memory.load m base ws) i = Memory.read m i := by
  induction ws generalizing m base with
  | nil => rfl
  | cons w ws ih =>
    simp only [List.length_cons] at h
    have hne : i ≠ base := by omega
    rw [Memory.load, ih _ _ (by omega), Memory.read_write, if_neg hne]

/-- A cell that LOAD's loop writes holds its word. -/
theorem Memory.read_load_inside (m : Memory) (base : Nat) (ws : List InstrWord) {i : Nat}
    (h : i < ws.length) :
    Memory.read (Memory.load m base ws) (base + i) = ws[i] := by
  induction ws generalizing m base i with
  | nil => simp at h
  | cons w ws ih =>
    rw [Memory.load]
    cases i with
    | zero => simp [Memory.read_load_outside, Memory.read_write]
    | succ j =>
      have hj : j < ws.length := by simpa using h
      have := ih (Memory.write m base w) (base + 1) hj
      rw [Nat.add_right_comm, Nat.add_assoc] at this
      simpa using this

end Sys2Proof.Machine
end

