-- ==== Sys2Proof/Laws/State.lean ====
section
/-!
SUPPORT. What each update of the state does to each field, true by definition, so that no later proof
unfolds a record update; and the little there is to say of pair indices.
-/

namespace Sys2Proof.Machine

variable {P : Config.Params}

/-! ### `Block.writeReg` -/

@[simp] theorem Block.writeReg_status (b : Block P) (d : Reg) (v : Word P) :
    (b.writeReg d v).status = b.status := rfl

@[simp] theorem Block.writeReg_faultCode (b : Block P) (d : Reg) (v : Word P) :
    (b.writeReg d v).faultCode = b.faultCode := rfl

@[simp] theorem Block.writeReg_faultIp (b : Block P) (d : Reg) (v : Word P) :
    (b.writeReg d v).faultIp = b.faultIp := rfl

@[simp] theorem Block.writeReg_plen (b : Block P) (d : Reg) (v : Word P) :
    (b.writeReg d v).plen = b.plen := rfl

@[simp] theorem Block.writeReg_pmem (b : Block P) (d : Reg) (v : Word P) :
    (b.writeReg d v).pmem = b.pmem := rfl

@[simp] theorem Block.writeReg_regs (b : Block P) (d : Reg) (v : Word P) :
    (b.writeReg d v).regs = b.regs.write v d := rfl

@[simp] theorem Block.writeReg_ip (b : Block P) (d : Reg) (v : Word P) :
    (b.writeReg d v).ip = b.ip := rfl

@[simp] theorem Block.writeReg_outSeq (b : Block P) (d : Reg) (v : Word P) :
    (b.writeReg d v).outSeq = b.outSeq := rfl

/-! ### `Block.setIp` -/

@[simp] theorem Block.setIp_status (b : Block P) (n : PairIndex P) :
    (b.setIp n).status = b.status := rfl

@[simp] theorem Block.setIp_faultCode (b : Block P) (n : PairIndex P) :
    (b.setIp n).faultCode = b.faultCode := rfl

@[simp] theorem Block.setIp_faultIp (b : Block P) (n : PairIndex P) :
    (b.setIp n).faultIp = b.faultIp := rfl

@[simp] theorem Block.setIp_plen (b : Block P) (n : PairIndex P) :
    (b.setIp n).plen = b.plen := rfl

@[simp] theorem Block.setIp_pmem (b : Block P) (n : PairIndex P) :
    (b.setIp n).pmem = b.pmem := rfl

@[simp] theorem Block.setIp_regs (b : Block P) (n : PairIndex P) :
    (b.setIp n).regs = b.regs := rfl

@[simp] theorem Block.setIp_ip (b : Block P) (n : PairIndex P) :
    (b.setIp n).ip = n := rfl

@[simp] theorem Block.setIp_outSeq (b : Block P) (n : PairIndex P) :
    (b.setIp n).outSeq = b.outSeq := rfl

/-! ### `Block.advance` -/

@[simp] theorem Block.advance_status (b : Block P) :
    (b.advance).status = b.status := rfl

@[simp] theorem Block.advance_faultCode (b : Block P) :
    (b.advance).faultCode = b.faultCode := rfl

@[simp] theorem Block.advance_faultIp (b : Block P) :
    (b.advance).faultIp = b.faultIp := rfl

@[simp] theorem Block.advance_plen (b : Block P) :
    (b.advance).plen = b.plen := rfl

@[simp] theorem Block.advance_pmem (b : Block P) :
    (b.advance).pmem = b.pmem := rfl

@[simp] theorem Block.advance_regs (b : Block P) :
    (b.advance).regs = b.regs := rfl

@[simp] theorem Block.advance_ip (b : Block P) :
    (b.advance).ip = b.ip + 1 := rfl

@[simp] theorem Block.advance_outSeq (b : Block P) :
    (b.advance).outSeq = b.outSeq := rfl

/-! ### `Block.emit` -/

@[simp] theorem Block.emit_status (b : Block P) (d : Digit) :
    (b.emit d).status = b.status := rfl

@[simp] theorem Block.emit_faultCode (b : Block P) (d : Digit) :
    (b.emit d).faultCode = b.faultCode := rfl

@[simp] theorem Block.emit_faultIp (b : Block P) (d : Digit) :
    (b.emit d).faultIp = b.faultIp := rfl

@[simp] theorem Block.emit_plen (b : Block P) (d : Digit) :
    (b.emit d).plen = b.plen := rfl

@[simp] theorem Block.emit_pmem (b : Block P) (d : Digit) :
    (b.emit d).pmem = b.pmem := rfl

@[simp] theorem Block.emit_regs (b : Block P) (d : Digit) :
    (b.emit d).regs = b.regs := rfl

@[simp] theorem Block.emit_ip (b : Block P) (d : Digit) :
    (b.emit d).ip = b.ip := rfl

@[simp] theorem Block.emit_outSeq (b : Block P) (d : Digit) :
    (b.emit d).outSeq = b.outSeq ++ [d] := rfl

/-! ### `Block.raise` -/

@[simp] theorem Block.raise_status (b : Block P) (c : Cause) :
    (b.raise c).status = .fault := rfl

@[simp] theorem Block.raise_faultCode (b : Block P) (c : Cause) :
    (b.raise c).faultCode = c.code := rfl

@[simp] theorem Block.raise_faultIp (b : Block P) (c : Cause) :
    (b.raise c).faultIp = b.ip := rfl

@[simp] theorem Block.raise_plen (b : Block P) (c : Cause) :
    (b.raise c).plen = b.plen := rfl

@[simp] theorem Block.raise_pmem (b : Block P) (c : Cause) :
    (b.raise c).pmem = b.pmem := rfl

@[simp] theorem Block.raise_regs (b : Block P) (c : Cause) :
    (b.raise c).regs = b.regs := rfl

@[simp] theorem Block.raise_ip (b : Block P) (c : Cause) :
    (b.raise c).ip = b.ip := rfl

@[simp] theorem Block.raise_outSeq (b : Block P) (c : Cause) :
    (b.raise c).outSeq = b.outSeq := rfl

/-! ### `Block.halt` -/

@[simp] theorem Block.halt_status (b : Block P) :
    (b.halt).status = .halt := rfl

@[simp] theorem Block.halt_faultCode (b : Block P) :
    (b.halt).faultCode = b.faultCode := rfl

@[simp] theorem Block.halt_faultIp (b : Block P) :
    (b.halt).faultIp = b.faultIp := rfl

@[simp] theorem Block.halt_plen (b : Block P) :
    (b.halt).plen = b.plen := rfl

@[simp] theorem Block.halt_pmem (b : Block P) :
    (b.halt).pmem = b.pmem := rfl

@[simp] theorem Block.halt_regs (b : Block P) :
    (b.halt).regs = b.regs := rfl

@[simp] theorem Block.halt_ip (b : Block P) :
    (b.halt).ip = b.ip := rfl

@[simp] theorem Block.halt_outSeq (b : Block P) :
    (b.halt).outSeq = b.outSeq := rfl

/-! ### `Block.resetWith` -/

@[simp] theorem Block.resetWith_status (r : Regs P) (m : Memory) :
    (Block.resetWith r m).status = .idle := rfl

@[simp] theorem Block.resetWith_faultCode (r : Regs P) (m : Memory) :
    (Block.resetWith r m).faultCode = .none := rfl

@[simp] theorem Block.resetWith_faultIp (r : Regs P) (m : Memory) :
    (Block.resetWith r m).faultIp = 0 := rfl

@[simp] theorem Block.resetWith_plen (r : Regs P) (m : Memory) :
    (Block.resetWith r m).plen = 0 := rfl

@[simp] theorem Block.resetWith_pmem (r : Regs P) (m : Memory) :
    (Block.resetWith r m).pmem = m := rfl

@[simp] theorem Block.resetWith_regs (r : Regs P) (m : Memory) :
    (Block.resetWith r m).regs = r := rfl

@[simp] theorem Block.resetWith_ip (r : Regs P) (m : Memory) :
    (Block.resetWith r m).ip = 0 := rfl

@[simp] theorem Block.resetWith_outSeq (r : Regs P) (m : Memory) :
    (Block.resetWith r m).outSeq = [] := rfl

/-! ### The register file -/

@[simp] theorem Regs.write_a (r : Regs P) (v : Word P) : r.write v .a = { r with a := v } := rfl

@[simp] theorem Regs.write_b (r : Regs P) (v : Word P) : r.write v .b = { r with b := v } := rfl

@[simp] theorem Regs.write_c (r : Regs P) (v : Word P) : r.write v .c = { r with c := v } := rfl

@[simp] theorem Regs.read_a (r : Regs P) : r.read .a = r.a := rfl

@[simp] theorem Regs.read_b (r : Regs P) : r.read .b = r.b := rfl

@[simp] theorem Regs.read_c (r : Regs P) : r.read .c = r.c := rfl

/-- A register reads back what was written to it. -/
theorem Regs.read_write_same (r : Regs P) (v : Word P) (d : Reg) : (r.write v d).read d = v := by
  cases d <;> rfl

/-- A write leaves every other register alone (R22). -/
theorem Regs.read_write_other (r : Regs P) (v : Word P) {d e : Reg} (h : e ≠ d) :
    (r.write v d).read e = r.read e := by
  cases d <;> cases e <;> first | rfl | exact absurd rfl h

/-! ### A state and its block -/

/-- Blocks of the same instance with the same state are the same block. -/
theorem Block.state_inj {b t : Block P} (h : b.state = t.state) : b = t := by
  simpa using h

/-- Two equal next states are of the same block. -/
theorem next_state_inj {b t : Block P}
    (h : (.next b.state : Result) = .next t.state) : b = t := by
  simpa using h

/-! ### Pair indices -/

theorem params_pmax_le_ipMax (P : Config.Params) : P.pmax ≤ P.ipMax := Nat.le_max_left ..

theorem params_seven_le_ipMax (P : Config.Params) : 7 ≤ P.ipMax := Nat.le_max_right ..

/-- `IPW` bits hold `max(PMAX, 7)` (R6). -/
theorem params_ipMax_lt (P : Config.Params) : P.ipMax < 2 ^ P.ipw := Nat.lt_log2_self

/-- The incremented ip of a pair that exists does not wrap (R86). -/
theorem ipInc_toNat {b : Block P} (h : b.ip.toNat < P.pmax) : (ipInc b).toNat = b.ip.toNat + 1 := by
  have h1 := params_ipMax_lt P
  have h2 := params_pmax_le_ipMax P
  have h3 : 1 < 2 ^ P.ipw := by
    have := P.pmax_pos
    omega
  have h4 : (1 : PairIndex P).toNat = 1 := by
    show (BitVec.ofNat P.ipw 1).toNat = 1
    rw [BitVec.toNat_ofNat, Nat.mod_eq_of_lt h3]
  rw [ipInc, BitVec.toNat_add, h4, Nat.mod_eq_of_lt (by omega)]

/-- A literal pair index fits in `IPW` bits (R24, R88). -/
theorem digit_index_toNat (P : Config.Params) (o : Digit) :
    (o.setWidth P.ipw : PairIndex P).toNat = o.toNat := by
  have h1 := params_ipMax_lt P
  have h2 := params_seven_le_ipMax P
  have h3 := o.isLt
  rw [BitVec.toNat_setWidth, Nat.mod_eq_of_lt (by omega)]

end Sys2Proof.Machine
end

