-- ==== Sys2Proof/Laws/Ops.lean ====
section
/-!
SUPPORT. One lemma per shared operation: everything it can answer.
-/

namespace Sys2Proof.Machine

variable {P : Config.Params}

/-- A finished instruction had its effect whole, or raised its fault and did nothing else (R100, R122). -/
theorem complete_cases {α : Type} {r : Except Cause α} {b : Block P} {t : State}
    {effect : α → Block P} (h : complete r b effect = .next t) :
    (∃ v, r = .ok v ∧ t = (effect v).state) ∨ (∃ c, r = .error c ∧ t = (b.raise c).state) := by
  unfold complete at h
  split at h <;> cases h
  · exact .inl ⟨_, rfl, rfl⟩
  · exact .inr ⟨_, rfl, rfl⟩

/-- An instruction that can fault always answers a next state, of the same instance. -/
theorem complete_next {α : Type} (r : Except Cause α) (b : Block P) (effect : α → Block P) :
    ∃ t : Block P, complete r b effect = .next t.state := by
  cases r <;> exact ⟨_, rfl⟩

/-- The combo mux raises nothing but COMBO_RESERVED, and that exactly for operand 7 (R80, R82). -/
theorem combo_error_iff (o : Digit) (r : Regs P) (c : Cause) :
    combo o r = .error c ↔ o = 7 ∧ c = .comboReserved := by
  unfold combo
  split <;> simp [eq_comm]

/-- What the combo mux selects (R80). -/
theorem combo_ok_cases {o : Digit} {r : Regs P} {k : Word P} (h : combo o r = .ok k) :
    (o.toNat < 4 ∧ k = lit P o) ∨ (o = 4 ∧ k = r.a) ∨ (o = 5 ∧ k = r.b) ∨ (o = 6 ∧ k = r.c) := by
  unfold combo at h
  split at h <;> simp_all

/-- Division raises nothing but NEG_EXPONENT, and that exactly for a negative exponent (R83). -/
theorem tdiv_error_iff {w : Nat} (a : BitVec w) (k : Int) (c : Cause) :
    tdiv a k = .error c ↔ k < 0 ∧ c = .negExponent := by
  unfold tdiv
  split
  · simp_all [eq_comm]
  · split <;> simp only [reduceCtorEq, false_iff] <;> rintro ⟨hk, -⟩ <;> contradiction

/-- A quotient means an exponent that is not negative, and an operand other than 7 (R83, R123). -/
theorem quotient_ok {o : Digit} {r : Regs P} {v : Word P} (h : quotient o r = .ok v) :
    o ≠ 7 ∧ ∃ k, combo o r = .ok k ∧ 0 ≤ k.toInt ∧ tdiv r.a k.toInt = .ok v := by
  unfold quotient at h
  split at h
  · rename_i k hk
    refine ⟨?_, k, hk, ?_, h⟩
    · rintro rfl
      cases hk
    · by_cases hn : 0 ≤ k.toInt
      · exact hn
      · rw [(tdiv_error_iff _ _ _).2 ⟨Int.not_le.1 hn, rfl⟩] at h
        cases h
  · cases h

/-- A division that faults has operand 7, or else a negative exponent (R120, R123). -/
theorem quotient_error {o : Digit} {r : Regs P} {c : Cause} (h : quotient o r = .error c) :
    (o = 7 ∧ c = .comboReserved) ∨
      (o ≠ 7 ∧ c = .negExponent ∧ ∃ k, combo o r = .ok k ∧ k.toInt < 0) := by
  unfold quotient at h
  split at h
  · rename_i k hk
    have hd := (tdiv_error_iff _ _ _).1 h
    refine .inr ⟨?_, hd.2, k, hk, hd.1⟩
    rintro rfl
    cases hk
  · rename_i hk
    cases h
    exact .inl ((combo_error_iff _ _ _).1 hk)

/-- A digit of the combo operand is its value modulo 8 (R85). -/
theorem comboDigit_ok {o d : Digit} {r : Regs P} (h : comboDigit o r = .ok d) :
    o ≠ 7 ∧ ∃ k, combo o r = .ok k ∧ d = mod8 k := by
  unfold comboDigit at h
  split at h
  · rename_i k hk
    cases h
    refine ⟨?_, k, hk, rfl⟩
    rintro rfl
    cases hk
  · cases h

/-- BST and OUT fault with operand 7 and with nothing else (R120). -/
theorem comboDigit_error {o : Digit} {r : Regs P} {c : Cause} (h : comboDigit o r = .error c) :
    o = 7 ∧ c = .comboReserved := by
  unfold comboDigit at h
  split at h
  · cases h
  · rename_i hk
    cases h
    exact (combo_error_iff _ _ _).1 hk

/-- The core has a step exactly in RUN (R100). -/
theorem noStep_eq_none_iff (b : Block P) : noStep b = none ↔ b.status = .run := by
  unfold noStep
  split <;> simp_all

/-- The halt test (R100). -/
theorem haltDue_iff (b : Block P) : haltDue b = true ↔ b.plen.toNat ≤ b.ip.toNat := by
  simp [haltDue]

/-- What a fetch returns, and when (R40, R41). -/
theorem fetch_eq_some_iff (b : Block P) (w : InstrWord) :
    fetch b = some w ↔ b.ip.toNat < P.pmax ∧ Memory.read b.pmem b.ip.toNat = w := by
  unfold fetch
  split
  · simp_all
  · rename_i hp
    simp [hp]

end Sys2Proof.Machine
end

