-- ==== Sys2Proof/Laws/Step.lean ====
section
/-!
SUPPORT. What an instruction and a step can do, said once: one inversion lemma for `exec` and one for
`step`; every invariant follows from these.
-/

namespace Sys2Proof.Machine

variable {P : Config.Params}

/-- What an instruction that completes may change: registers, ip and output, each as the instruction
says; a fault changes STATE, FAULT_CODE and FAULT_IP only. The parameters never change. -/
theorem exec_cases {i : Instr} {b : Block P} {t : State} (h : exec i b.state = .next t) :
    (∃ o d v, (i = .adv o ∧ d = Reg.a ∨ i = .bdv o ∧ d = Reg.b ∨ i = .cdv o ∧ d = Reg.c) ∧
      quotient o b.regs = .ok v ∧ t = (b.writeReg d v).advance.state) ∨
    (∃ o v, (i = .bxl o ∧ v = xorAlu b.regs.b (lit P o) ∨
        i = .bxc o ∧ v = xorAlu b.regs.b b.regs.c ∨
        i = .bst o ∧ ∃ d, comboDigit o b.regs = .ok d ∧ v = zextDigit P d) ∧
      t = (b.writeReg .b v).advance.state) ∨
    (∃ o, i = .jnz o ∧ t = (b.setIp (jumpIp o b)).state) ∨
    (∃ o d, i = .out o ∧ comboDigit o b.regs = .ok d ∧ t = (b.emit d).advance.state) ∨
    (∃ o c, ((i = .adv o ∨ i = .bdv o ∨ i = .cdv o) ∧ quotient o b.regs = .error c ∨
        (i = .bst o ∨ i = .out o) ∧ comboDigit o b.regs = .error c) ∧
      t = (b.raise c).state) := by
  cases i with
  | adv o =>
    rcases complete_cases h with ⟨v, hv, ht⟩ | ⟨c, hc, ht⟩
    · exact .inl ⟨o, .a, v, .inl ⟨rfl, rfl⟩, hv, ht⟩
    · exact .inr (.inr (.inr (.inr ⟨o, c, .inl ⟨.inl rfl, hc⟩, ht⟩)))
  | bdv o =>
    rcases complete_cases h with ⟨v, hv, ht⟩ | ⟨c, hc, ht⟩
    · exact .inl ⟨o, .b, v, .inr (.inl ⟨rfl, rfl⟩), hv, ht⟩
    · exact .inr (.inr (.inr (.inr ⟨o, c, .inl ⟨.inr (.inl rfl), hc⟩, ht⟩)))
  | cdv o =>
    rcases complete_cases h with ⟨v, hv, ht⟩ | ⟨c, hc, ht⟩
    · exact .inl ⟨o, .c, v, .inr (.inr ⟨rfl, rfl⟩), hv, ht⟩
    · exact .inr (.inr (.inr (.inr ⟨o, c, .inl ⟨.inr (.inr rfl), hc⟩, ht⟩)))
  | bxl o =>
    cases h
    exact .inr (.inl ⟨o, _, .inl ⟨rfl, rfl⟩, rfl⟩)
  | bxc o =>
    cases h
    exact .inr (.inl ⟨o, _, .inr (.inl ⟨rfl, rfl⟩), rfl⟩)
  | bst o =>
    rcases complete_cases h with ⟨d, hd, ht⟩ | ⟨c, hc, ht⟩
    · exact .inr (.inl ⟨o, _, .inr (.inr ⟨rfl, d, hd, rfl⟩), ht⟩)
    · exact .inr (.inr (.inr (.inr ⟨o, c, .inr ⟨.inl rfl, hc⟩, ht⟩)))
  | jnz o =>
    cases h
    exact .inr (.inr (.inl ⟨o, rfl, rfl⟩))
  | out o =>
    rcases complete_cases h with ⟨d, hd, ht⟩ | ⟨c, hc, ht⟩
    · exact .inr (.inr (.inr (.inl ⟨o, d, rfl, hd, ht⟩)))
    · exact .inr (.inr (.inr (.inr ⟨o, c, .inr ⟨.inr rfl, hc⟩, ht⟩)))

/-- Every instruction answers a next state of the same instance: a fault of the block is one too. -/
theorem exec_next (i : Instr) (b : Block P) : ∃ t : Block P, exec i b.state = .next t.state := by
  cases i with
  | adv o => exact complete_next ..
  | bxl o => exact ⟨_, rfl⟩
  | bst o => exact complete_next ..
  | jnz o => exact ⟨_, rfl⟩
  | bxc o => exact ⟨_, rfl⟩
  | out o => exact complete_next ..
  | bdv o => exact complete_next ..
  | cdv o => exact complete_next ..

/-- What a step that has a next state did: the halt step, or the instruction it fetched (R100). -/
theorem step_cases {b : Block P} {t : State} (h : step b.state = .next t) :
    b.status = .run ∧
      ((b.plen.toNat ≤ b.ip.toNat ∧ t = b.halt.state) ∨
        (b.ip.toNat < b.plen.toNat ∧ b.ip.toNat < P.pmax ∧
          exec (decode (Memory.read b.pmem b.ip.toNat)) b.state = .next t)) := by
  unfold step at h
  split at h
  · cases h
  · rename_i hn
    refine ⟨(noStep_eq_none_iff b).1 hn, ?_⟩
    split at h
    · rename_i hd
      cases h
      exact .inl ⟨(haltDue_iff b).1 hd, rfl⟩
    · rename_i hd
      have hlt : b.ip.toNat < b.plen.toNat := Nat.lt_of_not_le fun hle => hd ((haltDue_iff b).2 hle)
      split at h
      · rename_i w hw
        obtain ⟨hp, rfl⟩ := (fetch_eq_some_iff b w).1 hw
        exact .inr ⟨hlt, hp, h⟩
      · cases h

/-- The halt step (R100). -/
theorem step_halt {b : Block P} (hr : b.status = .run) (hp : b.plen.toNat ≤ b.ip.toNat) :
    step b.state = .next b.halt.state := by
  simp [step, (noStep_eq_none_iff b).2 hr, (haltDue_iff b).2 hp]

/-- A step below `PLEN` executes the word it fetches (R100). -/
theorem step_exec {b : Block P} (hr : b.status = .run) (hp : b.ip.toNat < b.plen.toNat)
    (hm : b.ip.toNat < P.pmax) :
    step b.state = exec (decode (Memory.read b.pmem b.ip.toNat)) b.state := by
  have hd : haltDue b = false := by simp [haltDue, hp]
  simp [step, (noStep_eq_none_iff b).2 hr, hd, (fetch_eq_some_iff b _).2 ⟨hm, rfl⟩]

/-- A step keeps the parameters: its next state is a block of the same instance. -/
theorem step_block {b : Block P} {t : State} (h : step b.state = .next t) :
    ∃ u : Block P, t = u.state := by
  obtain ⟨-, ⟨-, rfl⟩ | ⟨-, -, he⟩⟩ := step_cases h
  · exact ⟨_, rfl⟩
  · obtain ⟨u, hu⟩ := exec_next (decode (Memory.read b.pmem b.ip.toNat)) b
    rw [hu] at he
    cases he
    exact ⟨u, rfl⟩

end Sys2Proof.Machine
end

