-- ==== Sys2Proof/Laws/Host.lean ====
section
/-! SUPPORT. What each host command can do, said once, and the induction over events. -/

namespace Sys2Proof.Machine

/-- A LOAD that has a next state met its precondition, and wrote PMem and PLEN only (R142). -/
theorem hostLoad_cases {P : Config.Params} {ws : List InstrWord} {b : Block P} {t : State}
    (h : hostLoad ws b.state = .next t) :
    b.status ≠ .run ∧ ws.length ≤ P.pmax ∧
      t = Block.state { b with
        pmem := Memory.load b.pmem 0 ws, plen := BitVec.ofNat P.ipw ws.length } := by
  unfold hostLoad at h
  split at h
  · cases h
  · split at h
    · rename_i hr hf
      cases h
      exact ⟨hr, by simpa [programFits] using hf, rfl⟩
    · cases h

/-- The `PLEN` that LOAD sets is the number of words (R142). -/
theorem load_plen_toNat {P : Config.Params} {n : Nat} (h : n ≤ P.pmax) :
    (BitVec.ofNat P.ipw n).toNat = n := by
  have h1 := params_ipMax_lt P
  have h2 := params_pmax_le_ipMax P
  rw [BitVec.toNat_ofNat, Nat.mod_eq_of_lt (by omega)]

/-- A START that has a next state met its precondition, and began a run (R143). -/
theorem hostStart_cases {P : Config.Params} {x y z : Int} {b : Block P} {t : State}
    (h : hostStart x y z b.state = .next t) :
    b.status ≠ .run ∧ (fitsXlen P x ∧ fitsXlen P y ∧ fitsXlen P z) ∧
      t = Block.state { b with
        regs := ⟨BitVec.ofInt _ x, BitVec.ofInt _ y, BitVec.ofInt _ z⟩
        ip := 0, outSeq := [], faultCode := .none, faultIp := 0, status := .run } := by
  unfold hostStart at h
  split at h
  · cases h
  · split at h
    · rename_i hr hf
      cases h
      exact ⟨hr, hf, rfl⟩
    · cases h

/-- What an event that has a next state did. -/
theorem act_cases {e : Event} {s t : State} (h : act e s = .next t) :
    (e = .coreStep ∧ step s = .next t) ∨
    (∃ draw, e = .command (.reset draw) ∧ t = powerOn s.params draw) ∨
    (∃ ws, e = .command (.load ws) ∧ hostLoad ws s = .next t) ∨
    (∃ a b c, e = .command (.start a b c) ∧ hostStart a b c s = .next t) ∨
    (∃ i, e = .command (.read i) ∧ t = s) := by
  cases e with
  | coreStep => exact .inl ⟨rfl, h⟩
  | command cmd =>
    cases cmd with
    | reset draw =>
      cases h
      exact .inr (.inl ⟨draw, rfl, rfl⟩)
    | load ws => exact .inr (.inr (.inl ⟨ws, rfl, h⟩))
    | start a b c => exact .inr (.inr (.inr (.inl ⟨a, b, c, rfl, h⟩)))
    | read i =>
      cases h
      exact .inr (.inr (.inr (.inr ⟨i, rfl, rfl⟩)))

/-- An event keeps the parameters. -/
theorem act_block {P : Config.Params} {e : Event} {b : Block P} {t : State}
    (h : act e b.state = .next t) : ∃ u : Block P, t = u.state := by
  rcases act_cases h with ⟨-, h⟩ | ⟨draw, -, rfl⟩ | ⟨ws, -, h⟩ | ⟨x, y, z, -, h⟩ | ⟨i, -, rfl⟩
  · exact step_block h
  · exact ⟨_, rfl⟩
  · obtain ⟨-, -, rfl⟩ := hostLoad_cases h
    exact ⟨_, rfl⟩
  · obtain ⟨-, -, rfl⟩ := hostStart_cases h
    exact ⟨_, rfl⟩
  · exact ⟨_, rfl⟩

/-- A property that every event keeps holds after every sequence of events. -/
theorem acts_induction {Q : State → Prop} (hact : ∀ e s t, Q s → act e s = .next t → Q t) :
    ∀ {es : List Event} {s t : State}, Q s → acts es s = .next t → Q t
  | [], _, _, hs, h => by
    cases h
    exact hs
  | e :: es, s, _, hs, h => by
    unfold acts at h
    split at h
    · rename_i u hu
      exact acts_induction hact (hact e s u hs hu) h
    · cases h
    · cases h

/-- The canonical form holds of what RESET leaves in program memory, whatever it is. -/
theorem draw_keeps_wf (P : Config.Params) (draw : Draw) : Memory.wf (draw.pmem P) :=
  Memory.load_keeps_wf 0 _ (by decide)

/-- What RESET leaves in program memory lies inside it. -/
theorem draw_in_range (P : Config.Params) (draw : Draw) : ∀ x ∈ draw.pmem P, x.1 < P.pmax := by
  intro x hx
  rcases Memory.mem_load hx with h | h
  · cases h
  · simp only [List.length_take] at h
    omega

/-- The canonical form holds of the memory of `State.reset`. -/
theorem reset_mem_wf : Memory.wf State.reset.block.pmem := by decide

end Sys2Proof.Machine
end

