-- ==== Sys2Proof/Laws/PerInstr.lean ====
section
/-!
SUPPORT. Statements made of every instruction as syntax, one lemma per constructor.
-/

/-- The fields of the encoding: every instruction is well-formed, its operand field is its operand, and
the decoder's control table reads it as the kind that the instruction has (R61, R64, R89). -/
def Sys2Proof.Laws.Fields.Statement (i : Sys2Proof.Instr) : Prop :=
  i.wf = true ∧ Sys2Proof.opdOf (Sys2Proof.encode i) = i.opd ∧
    (Sys2Proof.Machine.controlSignals (Sys2Proof.opcOf (Sys2Proof.encode i))).path = i.kind

theorem Sys2Proof.Laws.Fields.adv (o : Sys2Proof.Digit) :
    Sys2Proof.Laws.Fields.Statement (.adv o) := by
  unfold Sys2Proof.Laws.Fields.Statement
  revert o
  decide

theorem Sys2Proof.Laws.Fields.bxl (o : Sys2Proof.Digit) :
    Sys2Proof.Laws.Fields.Statement (.bxl o) := by
  unfold Sys2Proof.Laws.Fields.Statement
  revert o
  decide

theorem Sys2Proof.Laws.Fields.bst (o : Sys2Proof.Digit) :
    Sys2Proof.Laws.Fields.Statement (.bst o) := by
  unfold Sys2Proof.Laws.Fields.Statement
  revert o
  decide

theorem Sys2Proof.Laws.Fields.jnz (o : Sys2Proof.Digit) :
    Sys2Proof.Laws.Fields.Statement (.jnz o) := by
  unfold Sys2Proof.Laws.Fields.Statement
  revert o
  decide

theorem Sys2Proof.Laws.Fields.bxc (o : Sys2Proof.Digit) :
    Sys2Proof.Laws.Fields.Statement (.bxc o) := by
  unfold Sys2Proof.Laws.Fields.Statement
  revert o
  decide

theorem Sys2Proof.Laws.Fields.out (o : Sys2Proof.Digit) :
    Sys2Proof.Laws.Fields.Statement (.out o) := by
  unfold Sys2Proof.Laws.Fields.Statement
  revert o
  decide

theorem Sys2Proof.Laws.Fields.bdv (o : Sys2Proof.Digit) :
    Sys2Proof.Laws.Fields.Statement (.bdv o) := by
  unfold Sys2Proof.Laws.Fields.Statement
  revert o
  decide

theorem Sys2Proof.Laws.Fields.cdv (o : Sys2Proof.Digit) :
    Sys2Proof.Laws.Fields.Statement (.cdv o) := by
  unfold Sys2Proof.Laws.Fields.Statement
  revert o
  decide
end

