-- ==== Sys2Proof/Laws/Run.lean ====
section
/-! SUPPORT. Runs of core steps: how a run unfolds, and an invariant's induction, packaged once. -/

namespace Sys2Proof.Machine

/-- No step. -/
theorem run_zero (s : State) : Host.Core.run Sys2Proof.core 0 s = .next s := rfl

/-- A run whose first step has a next state goes on from it. -/
theorem run_succ_next {s t : State} (n : Nat) (h : step s = .next t) :
    Host.Core.run Sys2Proof.core (n + 1) s = Host.Core.run Sys2Proof.core n t := by
  have h' : Sys2Proof.core.step s = .next t := h
  simp only [Host.Core.run, h']

/-- A run whose first step stops, stops there. -/
theorem run_succ_fault {s : State} {r : Fault} (n : Nat) (h : step s = .fault r) :
    Host.Core.run Sys2Proof.core (n + 1) s = .fault r := by
  have h' : Sys2Proof.core.step s = .fault r := h
  simp only [Host.Core.run, h']

/-- A step never answers a refusal. -/
theorem step_not_refused (s : State) (r : Refusal) : step s ≠ .refused r := by
  intro h
  unfold step at h
  split at h
  · cases h
  · split at h
    · cases h
    · split at h
      · rename_i w _
        obtain ⟨t, ht⟩ := exec_next (decode w) s.block
        have he : exec (decode w) s = .next t.state := ht
        rw [he] at h
        cases h
      · cases h

/-- A run of one step or more that has a next state made a first step. -/
theorem run_succ_cases {s u : State} {n : Nat}
    (h : Host.Core.run Sys2Proof.core (n + 1) s = .next u) :
    ∃ t, step s = .next t ∧ Host.Core.run Sys2Proof.core n t = .next u := by
  cases hs : step s with
  | next t => exact ⟨t, rfl, by rwa [run_succ_next n hs] at h⟩
  | fault r => rw [run_succ_fault n hs] at h; cases h
  | refused r => exact absurd hs (step_not_refused s r)

/-- A property that every step keeps holds at the end of every run that starts with it. -/
theorem run_induction {Q : State → Prop} (hstep : ∀ s t, Q s → step s = .next t → Q t) :
    ∀ {n : Nat} {s u : State}, Q s → Host.Core.run Sys2Proof.core n s = .next u → Q u
  | 0, _, _, hs, h => by
    cases h
    exact hs
  | _ + 1, _, _, hs, h => by
    obtain ⟨t, ht, hu⟩ := run_succ_cases h
    exact run_induction hstep (hstep _ _ hs ht) hu

/-- A run keeps the parameters: every state of it is a block of the same instance. -/
theorem run_block {P : Config.Params} :
    ∀ {n : Nat} {b : Block P} {t : State},
      Host.Core.run Sys2Proof.core n b.state = .next t → ∃ u : Block P, t = u.state
  | 0, _, _, h => by
    cases h
    exact ⟨_, rfl⟩
  | _ + 1, _, _, h => by
    obtain ⟨t, ht, hu⟩ := run_succ_cases h
    obtain ⟨u, rfl⟩ := step_block ht
    exact run_block hu

end Sys2Proof.Machine
end

