-- ==== Sys2Proof/Tests/Slice0.lean ====
section
/-!
SUPPORT. The model's own tests. Expected values come from spec/30_encoding.md R63 and
spec/95_test_vectors.md; each is one step on a small state. The witnesses at the end show, for every
statement with hypotheses, values that meet all of them.
-/

namespace Sys2Proof.Machine.Tests

open Sys2Proof Sys2Proof.Machine

/-- A block of an instance in RUN at pair 0, with a program and initial registers. -/
def runningOf (P : Config.Params) (ws : List InstrWord) (a b c : Int) : Block P where
  status := .run
  faultCode := .none
  faultIp := 0
  plen := BitVec.ofNat _ ws.length
  pmem := Memory.load [] 0 ws
  regs := ⟨BitVec.ofInt _ a, BitVec.ofInt _ b, BitVec.ofInt _ c⟩
  ip := 0
  outSeq := []

/-- The same at the default width. -/
def running (ws : List InstrWord) (a b c : Int) : Block Config.params :=
  runningOf Config.params ws a b c

/-- The next state of an answer, if it is one. -/
def after : Result → Option State
  | .next t => some t
  | .fault _ => none
  | .refused _ => none

/-- A, B, C and the ip after one step. -/
def stepRegs {P : Config.Params} (b : Block P) : Option (Int × Int × Int × Nat) :=
  (after (step b.state)).map fun t =>
    (t.block.regs.a.toInt, t.block.regs.b.toInt, t.block.regs.c.toInt, t.block.ip.toNat)

/-- The status registers and the output after one step. -/
def stepStatus {P : Config.Params} (b : Block P) :
    Option (RunState × FaultCode × Nat × List Digit) :=
  (after (step b.state)).map fun t =>
    (t.block.status, t.block.faultCode, t.block.faultIp.toNat, t.block.outSeq)

/-- STATE and FAULT_CODE after an answer that is a next state. -/
def statusAfter (r : Result) : Option (RunState × FaultCode) :=
  (after r).map fun t => (t.block.status, t.block.faultCode)

/-- An instance with room for two pairs. -/
def room2 : Config.Params := ⟨64, 2, by decide, by decide⟩

/-- The smallest instance: 4-bit registers and one pair. -/
def tiny : Config.Params := ⟨4, 1, by decide, by decide⟩

/-- Why an answer is no next state, if it stops. -/
def stopReason : Result → Option Fault
  | .next _ => none
  | .fault r => some r
  | .refused _ => none

/-- Why an answer is no next state, if it is refused. -/
def refusal : Result → Option Refusal
  | .next _ => none
  | .fault _ => none
  | .refused r => some r

/-! ### Well-formedness refuses (R60, R142) -/

theorem test_digit_eight_refused : digitOk 8 = false := by decide

theorem test_opcode_eight_refused : pairOk (8, 0) = false := by decide

theorem test_operand_eight_refused : pairOk (0, 8) = false := by decide

theorem test_digit_list_out_of_range_refused : digitsOk [0, 8] = false := by decide

theorem test_odd_digit_list_refused : digitsOk [0, 1, 5] = false := by decide

theorem test_program_too_long_refused : programFits room2 [0x01, 0x2C, 0x18] = false := by decide

theorem test_word_above_six_bits_refused : decodeRaw 64 = .error (.wordRange 64) := by rfl

/-! ### Decoding, from the word patterns of R63 -/

theorem test_decode_adv : decode 0b000001 = .adv 1 := by decide

theorem test_decode_bxl : decode 0b001111 = .bxl 7 := by decide

theorem test_decode_bst : decode 0b010110 = .bst 6 := by decide

theorem test_decode_jnz : decode 0b011101 = .jnz 5 := by decide

theorem test_decode_bxc : decode 0b100111 = .bxc 7 := by decide

theorem test_decode_out : decode 0b101100 = .out 4 := by decide

theorem test_decode_bdv : decode 0b110011 = .bdv 3 := by decide

theorem test_decode_cdv : decode 0b111110 = .cdv 6 := by decide

/-- R60: the flat digits of program P1, and their words. -/
theorem test_words_of_digits :
    (wordsOfDigits [0, 1, 5, 4, 3, 0]).toOption = some [0x01, 0x2C, 0x18] := by decide

/-- R68: one instruction in two of its written forms. -/
theorem test_written_forms :
    parseInstr ['(', 'A', 'd', 'V', ',', '1', ')'] = some (.adv 1) ∧
    parseInstr ['j', 'n', 'z', ' ', '0'] = some (.jnz 0) := by decide

/-! ### One step of each instruction, from spec/95_test_vectors.md section 2 -/

theorem test_adv_rounds_toward_zero :
    stepRegs (running [0x01] (-7) 0 0) = some (-3, 0, 0, 1) := by decide

theorem test_adv_own_negative_exponent_faults :
    stepStatus (running [0x04] (-2) 0 0) = some (.fault, .negExponent, 0, []) := by decide

theorem test_bdv_uses_old_b :
    stepRegs (running [0x35] 100 2 0) = some (100, 25, 0, 1) := by decide

theorem test_bdv_seven_faults :
    stepRegs (running [0x37] 9 4 0) = some (9, 4, 0, 0) ∧
    stepStatus (running [0x37] 9 4 0) = some (.fault, .comboReserved, 0, []) := by decide

theorem test_cdv_uses_old_c :
    stepRegs (running [0x3E] 40 0 3) = some (40, 0, 5, 1) := by decide

theorem test_cdv_negative_exponent_faults :
    stepStatus (running [0x3E] 40 0 (-3)) = some (.fault, .negExponent, 0, []) := by decide

theorem test_adv_large_exponents :
    stepRegs (running [0x05] (-9223372036854775808) 63 0) = some (-1, 63, 0, 1) ∧
    stepRegs (running [0x05] (-9223372036854775808) 64 0) = some (0, 64, 0, 1) := by decide

theorem test_bxl_negative_b :
    stepRegs (running [0x0F] 0 (-1) 0) = some (0, -8, 0, 1) := by decide

theorem test_bxc_values :
    stepRegs (running [0x20] 0 2024 43690) = some (0, 44354, 43690, 1) := by decide

theorem test_bxc_seven_runs :
    stepRegs (running [0x27] 0 5 3) = some (0, 6, 3, 1) := by decide

theorem test_bst_negative_c :
    stepRegs (running [0x16] 0 0 (-1)) = some (0, 7, -1, 1) := by decide

theorem test_bst_largest_a :
    stepRegs (running [0x14] 9223372036854775807 0 0) =
      some (9223372036854775807, 7, 0, 1) := by decide

theorem test_out_negative_b :
    stepStatus (running [0x2D] 0 (-13) 0) = some (.run, .none, 0, [3]) := by decide

theorem test_out_seven_faults :
    stepStatus (running [0x2F] 0 0 0) = some (.fault, .comboReserved, 0, []) := by decide

theorem test_jnz_negative_a_jumps :
    stepRegs (running [0x1D] (-1) 0 0) = some (-1, 0, 0, 5) := by decide

theorem test_jnz_zero_a_falls_through :
    stepRegs { running [0x00, 0x00, 0x18] 0 0 0 with ip := 2 } = some (0, 0, 0, 3) := by decide

/-- R148: an empty program halts at once. -/
theorem test_empty_program_halts :
    stepStatus (running [] 5 0 0) = some (.halt, .none, 0, []) := by decide

/-- R6, R24: the smallest instance, whose ip is 3 bits wide, jumps to pair 7 and halts there. -/
theorem test_smallest_instance :
    tiny.ipw = 3 ∧ stepRegs (runningOf tiny [0x1F] (-8) 0 0) = some (-8, 0, 0, 7) ∧
    stepStatus { runningOf tiny [0x1F] (-8) 0 0 with ip := 7 } = some (.halt, .none, 0, []) := by
  decide

/-- R6: registers wider than 64 bits, with a value that needs them. -/
theorem test_wide_registers :
    stepRegs (runningOf ⟨128, 1, by decide, by decide⟩ [0x01] (2 ^ 100) 0 0) =
      some (2 ^ 99, 0, 0, 1) := by decide

/-- R100: no step right after reset. -/
theorem test_reset_has_no_step : stopReason (step State.reset) = some .idle := by decide

/-- The word of BST 3 runs as the first instruction after reset. -/
theorem test_fetch_word_after_reset :
    (after (step (State.reset.withFetchWord 6 0x13))).map
      (fun t => (t.block.status, t.block.regs.b.toInt, t.block.ip.toNat)) =
      some (.run, 3, 1) := by decide

/-- R29: C is read at index 6, STATUS at index 0. -/
theorem test_read_map :
    hostRead 6 (running [] 0 0 (-1)) = -1 ∧ hostRead 0 (running [] 0 0 0) = 1 := by decide

/-! ### Witnesses: every statement's hypotheses can be met, at the ends of their ranges -/

/-- JNZ 0 at pair 0 of an instance with room for two pairs, which jumps to itself while A is not zero. -/
def selfLoop : Block room2 := runningOf room2 [0x18] 1 0 0

/-- A block in FAULT. -/
def faulted : Block room2 := (runningOf room2 [0x07] 100 0 0).raise .comboReserved

/-- A register file at the default width. -/
def regsOf (a b c : Int) : Regs Config.params := (running [] a b c).regs

theorem witness_WordFields : opcOf (pack 7 0) = 7 ∧ opdOf (0x3F : InstrWord) = 7 := by decide

theorem witness_OpcodeMap :
    (0x07 : InstrWord) &&& 0x38 = 0x00 ∧ (0x08 : InstrWord) &&& 0x38 = 0x08 ∧
    (0x17 : InstrWord) &&& 0x38 = 0x10 ∧ (0x1F : InstrWord) &&& 0x38 = 0x18 ∧
    (0x20 : InstrWord) &&& 0x38 = 0x20 ∧ (0x2F : InstrWord) &&& 0x38 = 0x28 ∧
    (0x30 : InstrWord) &&& 0x38 = 0x30 ∧ (0x3F : InstrWord) &&& 0x38 = 0x38 := by decide

theorem witness_DecodeEncode : (64 : Nat) ≤ 64 := by decide

theorem witness_ProgramDigits :
    digitsOk [7, 7] = true ∧ digitsOfWords [0x3F] = [7, 7] ∧
    (wordsOfDigits [7, 7]).toOption = some [0x3F] ∧ 0 < [(0x3F : InstrWord)].length := by decide

theorem witness_BadDigitsRefused :
    [7].all digitOk = true ∧ [7].length % 2 = 1 ∧ 8 ≤ 8 ∧ 7 < 8 := by decide

theorem witness_WrittenForms :
    'a'.toUpper = 'A'.toUpper ∧ 'D'.toUpper = 'd'.toUpper ∧ 'v'.toUpper = 'V'.toUpper := by decide

theorem witness_ComboMux : (3 : Digit).toNat ≤ 3 := by decide

theorem witness_DivideExact :
    (-1 : Int) < 0 ∧ (0 : Int) ≤ 63 ∧ (63 : Int) = (64 : Nat) - 1 ∧
    (BitVec.ofInt 64 (-2 ^ 63)).toInt = -2 ^ (64 - 1) ∧ ((64 : Nat) : Int) ≤ 64 ∧
    (combo 4 (regsOf (-1) 0 0)).toOption = some (-1) ∧ (-1 : Word Config.params).toInt < 0 := by
  decide

theorem witness_DivideShiftForm :
    1 < 64 ∧ (-7 : BitVec 64).toInt < 0 ∧ ¬ (2 ^ 1 : Int) ∣ (-7 : BitVec 64).toInt ∧ 64 ≤ 64 := by
  decide

theorem witness_XorBits : 3 ≤ 3 := by decide

theorem witness_Mod8Euclid : 3 ≤ 3 := by decide

theorem witness_ResultsWidthIndependent : 64 ≤ 128 := by decide

theorem witness_StepRunsDecoded :
    selfLoop.status = .run ∧ selfLoop.ip.toNat < selfLoop.plen.toNat ∧
    selfLoop.plen.toNat ≤ room2.pmax ∧
    Memory.read selfLoop.pmem selfLoop.ip.toNat = encode (.jnz 0) ∧ 6 ≤ 6 := by decide

theorem witness_InstructionCycle :
    State.reset.block.status ≠ .run ∧ (running [] 0 0 0).status = .run ∧
    (running [] 0 0 0).plen.toNat ≤ (running [] 0 0 0).ip.toNat ∧
    selfLoop.status = .run ∧ selfLoop.ip.toNat < selfLoop.plen.toNat ∧
    selfLoop.plen.toNat ≤ room2.pmax ∧
    Memory.read selfLoop.pmem selfLoop.ip.toNat = 0x18 := by decide

theorem witness_NoStepOutsideRun :
    State.reset.block.status = .idle ∧ selfLoop.halt.status = .halt ∧ faulted.status = .fault ∧
    (after (act (.command (.load [0x18])) State.reset)).isSome = true := by decide

theorem witness_AdvRule :
    (combo 5 (regsOf 1 64 0)).toOption = some 64 ∧ 0 ≤ (64 : Word Config.params).toInt ∧
    Config.params.xlen ≤ (64 : Word Config.params).toInt ∧
    (regsOf (-1) (-1) (-1)).a.toInt < 0 ∧ (regsOf (-1) (-1) (-1)).b.toInt < 0 ∧
    (regsOf (-1) (-1) (-1)).c.toInt < 0 ∧ 0 ≤ (regsOf 0 0 0).a.toInt ∧
    (regsOf (-7) 0 0).a.toInt = -7 ∧ (regsOf 729 0 0).a.toInt = 729 := by decide

theorem witness_BxlRule :
    3 ≤ 3 ∧ (regsOf 0 (-1) 0).b.toInt = -1 ∧ (regsOf 0 29 0).b.toInt = 29 ∧
    (after (exec (.bxl 7) selfLoop.state)).map (fun t => (after (exec (.bxl 7) t)).isSome) =
      some true := by decide

theorem witness_BstRule :
    (combo 6 (regsOf 0 0 (-1))).toOption = some (-1) ∧ (3 : Digit).toNat ≤ 3 ∧
    (regsOf 0 0 (-1)).c.toInt = -1 ∧ (regsOf 10 0 0).a.toInt = 10 ∧
    (regsOf 0 0 9).c.toInt = 9 := by decide

theorem witness_JnzRule :
    selfLoop.status = .run ∧ selfLoop.regs.a ≠ 0 ∧ selfLoop.ip.toNat < selfLoop.plen.toNat ∧
    selfLoop.plen.toNat ≤ room2.pmax ∧ (0 : Digit).toNat = selfLoop.ip.toNat ∧
    Memory.read selfLoop.pmem selfLoop.ip.toNat = encode (.jnz 0) ∧
    (regsOf 0 0 0).a = 0 ∧ (regsOf (-1) 0 0).a.toInt < 0 ∧
    selfLoop.plen.toNat ≤ (1 : Digit).toNat := by decide

theorem witness_BxcRule :
    (regsOf 0 7 7).b = (regsOf 0 7 7).c ∧ (regsOf 0 7 0).c = 0 ∧
    (regsOf 0 (-5) 3).b.toInt = -5 ∧ (regsOf 0 (-5) 3).c.toInt = 3 ∧
    (regsOf 0 2024 43690).b.toInt = 2024 ∧ (regsOf 0 2024 43690).c.toInt = 43690 := by decide

theorem witness_OutRule :
    (combo 5 (regsOf 0 (-13) 0)).toOption = some (-13) ∧ (3 : Digit).toNat ≤ 3 ∧
    (regsOf 0 (-13) 0).b.toInt = -13 ∧ (regsOf 364 0 0).a.toInt = 364 := by decide

theorem witness_BdvRule :
    (combo 5 (regsOf 729 64 0)).toOption = some 64 ∧ 0 ≤ (0 : Word Config.params).toInt ∧
    Config.params.xlen ≤ (64 : Word Config.params).toInt ∧ (regsOf (-1) (-1) (-1)).b.toInt < 0 ∧
    0 ≤ (regsOf 1 0 0).b.toInt ∧ (regsOf 729 0 0).a.toInt = 729 := by decide

theorem witness_CdvRule :
    (combo 6 (regsOf 729 0 0)).toOption = some 0 ∧ 0 ≤ (0 : Word Config.params).toInt ∧
    (regsOf (-1) (-1) (-1)).c.toInt < 0 ∧ 0 ≤ (regsOf 1 0 0).c.toInt ∧
    (regsOf (-729) 0 0).a.toInt = -729 ∧ (regsOf 100 2 0).a.toInt = 100 ∧
    (regsOf 100 2 0).b.toInt = 2 := by decide

theorem witness_FrameRegister :
    (∀ i ∈ [Instr.adv 1, .bdv 1, .cdv 1, .bst 1, .bxl 1, .bxc 1],
      statusAfter (exec i selfLoop.state) = some (.run, .none)) ∧
    ∀ i ∈ [Instr.adv 7, .bdv 7, .cdv 7, .bst 7],
      statusAfter (exec i selfLoop.state) = some (.fault, .comboReserved) := by decide

theorem witness_FrameOutJnz :
    (∀ i ∈ [Instr.out 4, .jnz 7], statusAfter (exec i selfLoop.state) = some (.run, .none)) ∧
    statusAfter (exec (.out 7) selfLoop.state) = some (.fault, .comboReserved) := by decide

theorem witness_FaultsExactly :
    selfLoop.status = .run ∧
    (∀ i ∈ [Instr.adv 7, .bst 7, .out 7, .bdv 7, .cdv 7],
      statusAfter (exec i selfLoop.state) = some (.fault, .comboReserved)) ∧
    ∀ i ∈ [Instr.adv 4, .bdv 4, .cdv 4],
      statusAfter (exec i (running [] (-1) 0 0).state) = some (.fault, .negExponent) := by decide

theorem witness_FaultEntryPrecise :
    selfLoop.status = .run ∧
    statusAfter (exec (.out 7) selfLoop.state) = some (.fault, .comboReserved) := by decide

theorem witness_OneFault :
    (running [] (-1) 0 0).status = .run ∧ (running [] (-1) 0 0).faultCode = .none ∧
    statusAfter (exec (.bdv 4) (running [] (-1) 0 0).state) = some (.fault, .negExponent) := by
  decide

theorem witness_FaultHeld :
    faulted.status = .fault ∧
    (after (act (.command (.load [0x18])) faulted.state)).isSome = true ∧
    fitsXlen room2 (-2 ^ 63) = true ∧ fitsXlen room2 (2 ^ 63 - 1) = true := by decide

/-- The running state of a one-pair program, at its first pair, meets the invariant. -/
theorem witness_inv : selfLoop.Inv := by
  constructor <;> decide

theorem witness_StepKeepsInv :
    selfLoop.state.Inv ∧ (after (step selfLoop.state)).isSome = true :=
  ⟨witness_inv, by decide⟩

theorem witness_EventsKeepInv :
    selfLoop.state.Inv ∧
    (after (act (.command (.reset ⟨1, 2, 3, [0x3F]⟩)) selfLoop.state)).isSome = true :=
  ⟨witness_inv, by decide⟩

/-- Two running blocks with the same program below `PLEN` and different words above it. -/
theorem witness_StepKeepsAgreement :
    SameProgram selfLoop { selfLoop with pmem := [(0, 0x18), (1, 0x07)] } ∧
    selfLoop.observe = Block.observe { selfLoop with pmem := [(0, 0x18), (1, 0x07)] } ∧
    (after (step selfLoop.state)).isSome = true ∧
    stopReason (step selfLoop.halt.state) = some .halted := by
  refine ⟨⟨rfl, fun i hi => ?_⟩, by decide⟩
  obtain rfl : i = 0 := Nat.lt_one_iff.1 hi
  rfl

/-- RESET, LOAD of two pairs (the whole of a program memory of two) and START reach RUN. -/
theorem witness_RunNeverStuck :
    selfLoop.state.Inv ∧ selfLoop.state.block.status = .run ∧
    statusAfter (acts [.command (.load [0x01, 0x18]), .command (.start 1 0 0)]
      (powerOn room2 ⟨-1, -1, -1, []⟩)) = some (.run, .none) :=
  ⟨witness_inv, by decide⟩

/-- A halted run with an ip of 7, past `PLEN = 1`, meets the invariant and starts again. -/
theorem witness_IpRange :
    (Block.halt { selfLoop with ip := 7 }).Inv ∧
    (after (hostStart 5 0 0 (Block.halt { selfLoop with ip := 7 }).state)).isSome = true ∧
    selfLoop.status = .run ∧ selfLoop.ip.toNat < selfLoop.plen.toNat ∧ max room2.pmax 7 < 2 ^ 3 := by
  refine ⟨?_, by decide⟩
  constructor <;> decide

theorem witness_ProgramImmutable :
    (after (step selfLoop.state)).isSome = true ∧ selfLoop.status = .run ∧
    (after (act (.command (.load [0x18, 0x18])) selfLoop.halt.state)).map
      (fun t => t.block.plen.toNat) = some 2 ∧ selfLoop.halt.plen.toNat = 1 := by decide

theorem witness_MemoryLaws : Memory.wf [(0, 0x18), (1, 0x3F)] := by decide

theorem witness_OutputStream :
    (after (hostStart 10 0 0 (running [0x2C] 0 0 0).halt.state)).isSome = true ∧
    outPort (running [0x2C] 10 0 0).state = some 2 ∧
    stepStatus (running [0x2C] 10 0 0) = some (.run, .none, 0, [2]) := by decide

theorem witness_WriteTable :
    (after (exec (.cdv 1) selfLoop.state)).isSome = true ∧
    (after (exec (.bst 3) selfLoop.state)).map (fun t => t.block.regs.b.toInt) = some 3 ∧
    selfLoop.regs.b.toInt = 0 := by decide

theorem witness_AdvShrinksA :
    (combo 1 (regsOf 1 0 0)).toOption = some 1 ∧ 1 ≤ (1 : Word Config.params).toInt ∧
    (regsOf 1 0 0).a ≠ 0 ∧ (combo 0 (regsOf 0 0 0)).toOption = some 0 ∧
    (0 : Word Config.params).toInt = 0 ∧ (regsOf 0 0 0).a = 0 := by decide

theorem witness_ZeroAEndsRun :
    (runningOf room2 [0x18] 0 0 0).Inv ∧ (runningOf room2 [0x18] 0 0 0).status = .run ∧
    (runningOf room2 [0x18] 0 0 0).regs.a = 0 := by
  refine ⟨?_, by decide⟩
  constructor <;> decide

theorem witness_StatusWrittenBy :
    statusAfter (act .coreStep (running [] 0 0 0).state) = some (.halt, .none) ∧
    statusAfter (act .coreStep (running [0x07] 0 0 0).state) = some (.fault, .comboReserved) ∧
    statusAfter (act (.command (.start 0 0 0)) State.reset) = some (.run, .none) ∧
    (after (act (.command (.load [0x18, 0x18])) State.reset)).map (fun t => t.block.plen.toNat) =
      some 2 ∧
    statusAfter (act (.command (.reset ⟨0, 0, 0, []⟩)) faulted.state) = some (.idle, .none) := by
  decide

/-- A halted block with a word above `PLEN`, and other registers than `selfLoop` has. -/
def oldHalted : Block room2 :=
  { runningOf room2 [0x18, 0x07] 1 2 3 with plen := 1, status := .halt }

theorem witness_RunDetermined :
    SameProgram oldHalted selfLoop.halt ∧
    (after (hostStart 1 0 0 oldHalted.state)).isSome = true ∧
    (after (hostStart 1 0 0 selfLoop.halt.state)).isSome = true := by
  refine ⟨⟨rfl, fun i hi => ?_⟩, by decide⟩
  obtain rfl : i = 0 := Nat.lt_one_iff.1 hi
  rfl

/-- A program memory that fills its two cells is one that RESET may leave. -/
theorem witness_ResetCommand :
    Memory.wf [(0, 0x18), (1, 0x3F)] ∧
    ∀ x ∈ ([(0, 0x18), (1, 0x3F)] : Memory), x.1 < room2.pmax := by decide

theorem witness_LoadCommand :
    faulted.status ≠ .run ∧ [(0x01 : InstrWord), 0x18].length ≤ room2.pmax := by decide

theorem witness_StartCommand :
    faulted.status ≠ .run ∧ fitsXlen room2 (-2 ^ 63) = true ∧ fitsXlen room2 (2 ^ 63 - 1) = true ∧
    fitsXlen tiny (-8) = true ∧ fitsXlen tiny 7 = true := by decide

theorem witness_ReadCommand : Config.params.ipw ≤ Config.params.xlen ∧ tiny.ipw ≤ tiny.xlen := by
  decide

/-- The first value that does not fit, on either side, is refused. -/
theorem witness_HostDuties :
    selfLoop.state.block.status = .run ∧ faulted.state.block.status ≠ .run ∧
    room2.pmax < [(0x01 : InstrWord), 0x2C, 0x18].length ∧
    fitsXlen room2 (2 ^ 63) = false ∧
    refusal (act (.command (.start 0 (-2 ^ 63 - 1) 0)) faulted.state) = some .startOutOfRange := by
  decide

theorem witness_EmptyProgramHalts :
    (runningOf room2 [] 0 0 0).halt.plen = 0 ∧
    (after (hostStart 1 2 3 (runningOf room2 [] 0 0 0).halt.state)).isSome = true := by decide

theorem witness_BootSequence :
    [(0x01 : InstrWord), 0x18].length ≤ room2.pmax ∧ fitsXlen room2 (-2 ^ 63) = true ∧
    fitsXlen room2 (2 ^ 63 - 1) = true := by decide

end Sys2Proof.Machine.Tests
end

section
/-!
What one instruction and one core step change of the block: the frames (R21, R22, R42, R51, R122).
Before them: the contents of program memory determine it (R28).
-/

namespace Sys2Proof.Machine

variable {P : Config.Params}

/-! ### Program memory is determined by its contents -/

/-- In canonical form the listed cells are the ones that read as no unlisted cell does. -/
theorem Memory.mem_iff_read {m : Memory} (h : Memory.wf m) (i : Nat) (w : InstrWord) :
    (i, w) ∈ m ↔ w ≠ unlistedWord ∧ Memory.read m i = w := by
  induction m with
  | nil => simp [eq_comm]
  | cons x m ih =>
    obtain ⟨j, v⟩ := x
    obtain ⟨hrise, hlisted⟩ := h
    obtain ⟨hhead, htail⟩ := List.pairwise_cons.1 hrise
    have hv : v ≠ unlistedWord := hlisted _ List.mem_cons_self
    have hm := ih ⟨htail, fun y hy => hlisted y (List.mem_cons_of_mem _ hy)⟩
    by_cases hji : j = i
    · subst hji
      have hnot : (j, w) ∉ m := fun hmem => Nat.lt_irrefl j (hhead (j, w) hmem)
      simp only [List.mem_cons, Prod.mk.injEq, true_and, hnot, or_false, Memory.read, if_true]
      exact ⟨fun hw => ⟨hw ▸ hv, hw.symm⟩, fun hw => hw.2.symm⟩
    · simp [Memory.read, hji, Ne.symm hji, hm]

/-- Canonical memories with the same contents are the same list. -/
theorem Memory.eq_of_read_eq {m m' : Memory} (h : Memory.wf m) (h' : Memory.wf m')
    (hread : ∀ i, Memory.read m i = Memory.read m' i) : m = m' := by
  have : Std.Antisymm fun x y : PCell => x.1 < y.1 :=
    ⟨fun _ _ hxy hyx => absurd hxy (Nat.lt_asymm hyx)⟩
  have : Std.Irrefl fun x y : PCell => x.1 < y.1 := ⟨fun _ => Nat.lt_irrefl _⟩
  refine List.Pairwise.eq_of_mem_iff h.1 h'.1 fun ⟨i, w⟩ => ?_
  rw [Memory.mem_iff_read h, Memory.mem_iff_read h', hread]

/-! ### What an instruction changes -/

/-- The register that an instruction writes, R21's write column; JNZ and OUT write none. -/
def destOf : Instr → Option Reg
  | .adv _ => some .a
  | .bxl _ | .bst _ | .bxc _ | .bdv _ => some .b
  | .cdv _ => some .c
  | .jnz _ | .out _ => none

theorem eq_adv_of_destOf {i : Instr} (h : destOf i = some .a) : i = .adv i.opd := by
  cases i <;> simp_all [destOf, Instr.opd]

theorem mem_writers_of_destOf_b {i : Instr} (h : destOf i = some .b) :
    i ∈ [Instr.bxl i.opd, .bst i.opd, .bxc i.opd, .bdv i.opd] := by
  cases i <;> simp_all [destOf, Instr.opd]

theorem eq_cdv_of_destOf {i : Instr} (h : destOf i = some .c) : i = .cdv i.opd := by
  cases i <;> simp_all [destOf, Instr.opd]

theorem jumpIp_cases (o : Digit) (b : Block P) :
    jumpIp o b = ipInc b ∨ jumpIp o b = o.setWidth P.ipw := by
  unfold jumpIp
  split
  · exact .inr rfl
  · exact .inl rfl

/-- What every instruction that completes does alike, whatever it writes to a register or the output:
it keeps the program and the status registers, and the ip goes to the next pair or a literal one. -/
structure Completed (b t : Block P) : Prop where
  pmem : t.pmem = b.pmem
  plen : t.plen = b.plen
  status : KeepsStatus b t
  ip : t.ip = ipInc b ∨ ∃ o : Digit, t.ip = o.setWidth P.ipw

theorem completed_advance_writeReg (b : Block P) (d : Reg) (v : Word P) :
    Completed b (b.writeReg d v).advance := ⟨rfl, rfl, ⟨rfl, rfl, rfl⟩, .inl rfl⟩

theorem completed_advance_emit (b : Block P) (d : Digit) : Completed b (b.emit d).advance :=
  ⟨rfl, rfl, ⟨rfl, rfl, rfl⟩, .inl rfl⟩

theorem completed_jump (b : Block P) (o : Digit) : Completed b (b.setIp (jumpIp o b)) :=
  ⟨rfl, rfl, ⟨rfl, rfl, rfl⟩, (jumpIp_cases o b).imp_right fun h => ⟨o, h⟩⟩

theorem tookFault_raise (b : Block P) (c : Cause) : TookFault c b (b.raise c) :=
  ⟨rfl, rfl, rfl, rfl, rfl, rfl⟩

theorem Cause.code_ne_none (c : Cause) : c.code ≠ .none := by
  cases c <;> decide

section Exec

variable {i : Instr} {b t : Block P}

/-- An instruction completes, or it takes a fault (R100, R122). -/
theorem exec_completed_or_raised (h : exec i b.state = .next t.state) :
    Completed b t ∨ ∃ c, t = b.raise c := by
  rcases exec_cases h with ⟨_, d, v, -, -, ht⟩ | ⟨_, v, -, ht⟩ | ⟨o, -, ht⟩ | ⟨_, d, -, -, ht⟩ |
    ⟨_, c, -, ht⟩ <;> obtain rfl := Block.state_inj ht
  · exact .inl (completed_advance_writeReg b d v)
  · exact .inl (completed_advance_writeReg b .b v)
  · exact .inl (completed_jump b o)
  · exact .inl (completed_advance_emit b d)
  · exact .inr ⟨c, rfl⟩

/-- No instruction stores to program memory or changes PLEN (R42, R51). -/
theorem exec_keepsProgram (h : exec i b.state = .next t.state) : KeepsProgram b t := by
  rcases exec_completed_or_raised h with hc | ⟨c, rfl⟩
  · exact ⟨hc.plen, fun k => by rw [hc.pmem]⟩
  · exact ⟨rfl, fun _ => rfl⟩

/-- An instruction keeps the status registers, or takes a fault whole (R122). -/
theorem exec_keepsStatus_or_tookFault (h : exec i b.state = .next t.state) :
    KeepsStatus b t ∨ ∃ c, TookFault c b t := by
  rcases exec_completed_or_raised h with hc | ⟨c, rfl⟩
  · exact .inl hc.status
  · exact .inr ⟨c, tookFault_raise b c⟩

/-- An instruction leaves every register alone but the one it writes (R21, R22). -/
theorem exec_keeps_reg (h : exec i b.state = .next t.state) {e : Reg} (he : destOf i ≠ some e) :
    t.regs.read e = b.regs.read e := by
  rcases exec_cases h with ⟨_, d, v, hi, -, ht⟩ | ⟨_, v, hi, ht⟩ | ⟨_, -, ht⟩ | ⟨_, _, -, -, ht⟩ |
    ⟨_, _, -, ht⟩ <;> obtain rfl := Block.state_inj ht
  · have hd : destOf i = some d := by
      rcases hi with ⟨rfl, rfl⟩ | ⟨rfl, rfl⟩ | ⟨rfl, rfl⟩ <;> rfl
    exact Regs.read_write_other _ v fun hed => he (hed ▸ hd)
  · have hd : destOf i = some .b := by
      rcases hi with ⟨rfl, -⟩ | ⟨rfl, -⟩ | ⟨rfl, -⟩ <;> rfl
    exact Regs.read_write_other _ v fun hed => he (hed ▸ hd)
  · rfl
  · rfl
  · rfl

/-- Only OUT writes the output (R21, R27). -/
theorem exec_keeps_output (h : exec i b.state = .next t.state) (hi : i ≠ .out i.opd) :
    t.outSeq = b.outSeq := by
  rcases exec_cases h with ⟨_, _, _, -, -, ht⟩ | ⟨_, _, -, ht⟩ | ⟨_, -, ht⟩ | ⟨_, _, hout, -, ht⟩ |
    ⟨_, _, -, ht⟩ <;> obtain rfl := Block.state_inj ht
  · rfl
  · rfl
  · rfl
  · subst hout
    exact absurd rfl hi
  · rfl

/-- An instruction with a destination register leaves the other registers, the output, PLEN and
program memory alone (R21, R22, R51). -/
theorem exec_writes_only_dest (h : exec i b.state = .next t.state) {d : Reg}
    (hd : destOf i = some d) :
    (∀ e, e ≠ d → t.regs.read e = b.regs.read e) ∧ t.outSeq = b.outSeq ∧ KeepsProgram b t := by
  refine ⟨fun e he => exec_keeps_reg h (by simpa [hd] using he.symm), exec_keeps_output h ?_,
    exec_keepsProgram h⟩
  intro hout
  rw [hout] at hd
  cases hd

/-- A register whose value changed is the one that the instruction writes. -/
theorem destOf_of_reg_ne (h : exec i b.state = .next t.state) {e : Reg}
    (he : t.regs.read e ≠ b.regs.read e) : destOf i = some e :=
  Decidable.not_not.1 fun hd => he (exec_keeps_reg h hd)

/-- BXL and BXC keep the status registers: they raise no fault (R102, R105). -/
theorem xorIntoB_keepsStatus {v : Word P} (h : xorIntoB b.state v = .next t.state) :
    KeepsStatus b t := by
  obtain rfl := next_state_inj h
  exact ⟨rfl, rfl, rfl⟩

/-- BST and OUT had their effect, or took the fault of operand 7 (R120, R122). -/
theorem complete_comboDigit_cases {o : Digit} {effect : Digit → Block P}
    (h : complete (comboDigit o b.regs) b effect = .next t.state) :
    (∃ d, t = effect d) ∨ TookFault .comboReserved b t := by
  rcases complete_cases h with ⟨d, -, ht⟩ | ⟨c, hc, ht⟩ <;> obtain rfl := Block.state_inj ht
  · exact .inl ⟨d, rfl⟩
  · obtain ⟨-, rfl⟩ := comboDigit_error hc
    exact .inr (tookFault_raise b _)

end Exec

/-! ### What a step changes -/

section Step

variable {b t : Block P}

/-- A step halts at or past PLEN; below it its instruction completes or takes a fault (R100). -/
theorem step_halted_completed_or_raised (h : step b.state = .next t.state) :
    b.status = .run ∧
      (t = b.halt ∨
        (b.ip.toNat < b.plen.toNat ∧ b.ip.toNat < P.pmax ∧
          (Completed b t ∨ ∃ c, t = b.raise c))) := by
  obtain ⟨hr, ⟨-, ht⟩ | ⟨hlt, hp, he⟩⟩ := step_cases h
  · exact ⟨hr, .inl (Block.state_inj ht)⟩
  · exact ⟨hr, .inr ⟨hlt, hp, exec_completed_or_raised he⟩⟩

/-- What a step writes of the status registers: nothing, STATE at a halt, or the three of a fault,
whose ip is that of a pair below PLEN (R26, R100, R122). -/
theorem step_status_cases (h : step b.state = .next t.state) :
    KeepsStatus b t ∨
    (t.status = .halt ∧ t.faultCode = b.faultCode ∧ t.faultIp = b.faultIp) ∨
    (t.status = .fault ∧ t.faultCode ≠ .none ∧ t.faultIp = b.ip ∧ b.ip.toNat < b.plen.toNat) := by
  obtain ⟨-, rfl | ⟨hlt, -, hc | ⟨c, rfl⟩⟩⟩ := step_halted_completed_or_raised h
  · exact .inr (.inl ⟨rfl, rfl, rfl⟩)
  · exact .inl hc.status
  · exact .inr (.inr ⟨rfl, c.code_ne_none, rfl, hlt⟩)

theorem step_keeps_plen (h : step b.state = .next t.state) : t.plen = b.plen := by
  obtain ⟨-, rfl | ⟨-, -, hc | ⟨c, rfl⟩⟩⟩ := step_halted_completed_or_raised h
  · rfl
  · exact hc.plen
  · rfl

end Step

end Sys2Proof.Machine
end

section
/-!
The invariant `Block.Inv`: it holds at reset, and every core step and every host command keeps it
(R24, R26, R51, R122, R140 to R144).
-/

namespace Sys2Proof.Machine

variable {P : Config.Params} {b t : Block P}

/-- RESET and power-on meet the invariant, with any registers and any canonical memory in range. -/
theorem Block.resetWith_inv (r : Regs P) {m : Memory} (hwf : Memory.wf m)
    (hrange : ∀ x ∈ m, x.1 < P.pmax) : (Block.resetWith r m).Inv where
  memWf := hwf
  memInRange := hrange
  plenLe := by simp
  ipLe := by simp
  ipRun := by simp
  codeFault := by simp
  faultIpZero := by simp
  faultIpEq := by simp

theorem powerOn_inv (P : Config.Params) (draw : Draw) : (powerOn P draw).Inv :=
  Block.resetWith_inv _ (draw_keeps_wf P draw) (draw_in_range P draw)

theorem Block.Inv.faultCode_of_run (h : b.Inv) (hr : b.status = .run) : b.faultCode = .none :=
  Decidable.not_not.1 fun hne => by simpa [hr] using h.codeFault.1 hne

theorem Block.Inv.faultIp_of_run (h : b.Inv) (hr : b.status = .run) : b.faultIp = 0 :=
  h.faultIpZero (by simp [hr])

/-- The halt step keeps the invariant. -/
theorem Block.Inv.halt (h : b.Inv) (hr : b.status = .run) : b.halt.Inv where
  memWf := h.memWf
  memInRange := h.memInRange
  plenLe := h.plenLe
  ipLe := h.ipLe
  ipRun := by simp
  codeFault := by simp [h.faultCode_of_run hr]
  faultIpZero _ := h.faultIp_of_run hr
  faultIpEq := by simp

/-- Taking a fault at a pair of program memory keeps the invariant. -/
theorem Block.Inv.raise (h : b.Inv) (hp : b.ip.toNat < P.pmax) (c : Cause) : (b.raise c).Inv where
  memWf := h.memWf
  memInRange := h.memInRange
  plenLe := h.plenLe
  ipLe := h.ipLe
  ipRun := by simp
  codeFault := by simp [c.code_ne_none]
  faultIpZero := by simp
  faultIpEq _ := ⟨rfl, hp⟩

/-- An instruction below PLEN that completes leaves the ip in `0 .. max(PLEN, 7)` (R24). -/
theorem Completed.ip_le (h : Completed b t) (hlt : b.ip.toNat < b.plen.toNat)
    (hp : b.ip.toNat < P.pmax) : t.ip.toNat ≤ max t.plen.toNat 7 := by
  rw [h.plen]
  rcases h.ip with hip | ⟨o, hip⟩
  · rw [hip, ipInc_toNat hp]
    omega
  · rw [hip, digit_index_toNat]
    omega

/-- An instruction that completes keeps the invariant of a running block. -/
theorem Block.Inv.completed (h : b.Inv) (hr : b.status = .run) (hlt : b.ip.toNat < b.plen.toNat)
    (hp : b.ip.toNat < P.pmax) (hc : Completed b t) : t.Inv := by
  obtain ⟨hstatus, hcode, hfip⟩ := hc.status
  have hrun : t.status = .run := hstatus.trans hr
  have hip := hc.ip_le hlt hp
  have hplen : t.plen.toNat ≤ P.pmax := hc.plen ▸ h.plenLe
  exact
    { memWf := hc.pmem ▸ h.memWf
      memInRange := hc.pmem ▸ h.memInRange
      plenLe := hplen
      ipLe := hip.trans (max_le_max_right 7 hplen)
      ipRun := fun _ => hip
      codeFault := by simp [hcode, h.faultCode_of_run hr, hrun]
      faultIpZero := fun _ => hfip.trans (h.faultIp_of_run hr)
      faultIpEq := by simp [hrun] }

/-- A core step keeps the invariant. -/
theorem step_keeps_inv (h : b.Inv) (hs : step b.state = .next t.state) : t.Inv := by
  obtain ⟨hr, rfl | ⟨hlt, hp, hc | ⟨c, rfl⟩⟩⟩ := step_halted_completed_or_raised hs
  · exact h.halt hr
  · exact h.completed hr hlt hp hc
  · exact h.raise hp c

/-- LOAD keeps the invariant: it changes PMem and PLEN, outside RUN (R142). -/
theorem hostLoad_keeps_inv {ws : List InstrWord} (h : b.Inv)
    (hl : hostLoad ws b.state = .next t.state) : t.Inv := by
  obtain ⟨hr, hn, ht⟩ := hostLoad_cases hl
  obtain rfl := Block.state_inj ht
  exact
    { memWf := Memory.load_keeps_wf 0 ws h.memWf
      memInRange := fun x hx => (Memory.mem_load hx).elim (h.memInRange x) fun hlt => by omega
      plenLe := (load_plen_toNat hn).trans_le hn
      ipLe := h.ipLe
      ipRun := fun hrun => absurd hrun hr
      codeFault := h.codeFault
      faultIpZero := h.faultIpZero
      faultIpEq := h.faultIpEq }

/-- START keeps the invariant: the run begins at pair 0 with no fault recorded (R143). -/
theorem hostStart_keeps_inv {x y z : Int} (h : b.Inv)
    (hs : hostStart x y z b.state = .next t.state) : t.Inv := by
  obtain ⟨-, -, ht⟩ := hostStart_cases hs
  obtain rfl := Block.state_inj ht
  exact
    { memWf := h.memWf
      memInRange := h.memInRange
      plenLe := h.plenLe
      ipLe := by simp
      ipRun := by simp
      codeFault := by simp
      faultIpZero := by simp
      faultIpEq := by simp }

/-- Every event keeps the invariant. -/
theorem act_keeps_inv {e : Event} (h : b.Inv) (ha : act e b.state = .next t.state) : t.Inv := by
  rcases act_cases ha with ⟨-, hs⟩ | ⟨draw, -, ht⟩ | ⟨ws, -, hl⟩ | ⟨x, y, z, -, hs⟩ | ⟨_, -, ht⟩
  · exact step_keeps_inv h hs
  · obtain rfl := Block.state_inj ht
    exact powerOn_inv P draw
  · exact hostLoad_keeps_inv h hl
  · exact hostStart_keeps_inv h hs
  · obtain rfl := Block.state_inj ht
    exact h

/-- The invariant holds after any events from power-on. -/
theorem acts_powerOn_inv {es : List Event} {draw : Draw} {s : State}
    (h : acts es (powerOn P draw) = .next s) : s.Inv := by
  refine acts_induction (Q := State.Inv) (fun e s u hs ha => ?_) (powerOn_inv P draw) h
  obtain ⟨v, rfl⟩ := act_block ha
  exact act_keeps_inv hs ha

/-- A running block that meets the invariant has a next step (R40, R100). -/
theorem Block.Inv.step_next (h : b.Inv) (hr : b.status = .run) : ∃ u, step b.state = .next u := by
  by_cases hp : b.plen.toNat ≤ b.ip.toNat
  · exact ⟨_, step_halt hr hp⟩
  · have hlt : b.ip.toNat < b.plen.toNat := Nat.lt_of_not_le hp
    obtain ⟨u, hu⟩ := exec_next (decode (Memory.read b.pmem b.ip.toNat)) b
    exact ⟨u.state, (step_exec hr hlt (hlt.trans_le h.plenLe)).trans hu⟩

/-! ### The range of the ip -/

/-- A step from a state that meets the invariant leaves the ip in `0 .. max(PLEN, 7)` (R24). -/
theorem step_ip_le (h : b.Inv) (hs : step b.state = .next t.state) :
    t.ip.toNat ≤ max t.plen.toNat 7 := by
  obtain ⟨hr, rfl | ⟨hlt, hp, hc | ⟨c, rfl⟩⟩⟩ := step_halted_completed_or_raised hs
  · exact h.ipRun hr
  · exact hc.ip_le hlt hp
  · exact h.ipRun hr

/-- Along a run, and at its end, the invariant holds and the ip lies in `0 .. max(PLEN, 7)` (R24). -/
theorem run_inv_and_ip_le {n : Nat} (h : b.Inv) (hip : b.ip.toNat ≤ max b.plen.toNat 7)
    (hrun : Host.Core.run Sys2Proof.core n b.state = .next t.state) :
    t.Inv ∧ t.ip.toNat ≤ max t.plen.toNat 7 := by
  refine run_induction (Q := fun s => s.Inv ∧ s.block.ip.toNat ≤ max s.block.plen.toNat 7)
    (fun s u hq hs => ?_) (s := b.state) ⟨h, hip⟩ hrun
  obtain ⟨v, rfl⟩ := step_block hs
  exact ⟨step_keeps_inv hq.1 hs, step_ip_le hq.1 hs⟩

theorem ipMax_ne_zero (P : Config.Params) : P.ipMax ≠ 0 :=
  Nat.ne_of_gt ((Nat.succ_pos 6).trans_le (params_seven_le_ipMax P))

/-- `IPW` is the smallest width that holds `max(PMAX, 7)` (R6). -/
theorem ipw_le_iff (P : Config.Params) (n : Nat) : P.ipw ≤ n ↔ max P.pmax 7 < 2 ^ n :=
  Nat.log2_lt (ipMax_ne_zero P)

theorem three_le_ipw (P : Config.Params) : 3 ≤ P.ipw :=
  Nat.succ_le_succ ((Nat.le_log2 (ipMax_ne_zero P)).2
    (le_trans (by decide) (params_seven_le_ipMax P)))

end Sys2Proof.Machine
end

section
/-! The obligations about the state: the invariant, the frames, memory and the status registers. -/

namespace Sys2Proof.Machine

/-- Settles O34: the halt step, an instruction that completes and one that faults each keep the
invariant. -/
theorem stepKeepsInv : Obligations.StepKeepsInv := by
  unfold Obligations.StepKeepsInv
  intro s t hinv hs
  obtain ⟨u, rfl⟩ := step_block hs
  exact ⟨rfl, step_keeps_inv hinv hs⟩

/-- Settles O35: by the kind of event, with O34's step lemma for a core step. -/
theorem eventsKeepInv : Obligations.EventsKeepInv := by
  unfold Obligations.EventsKeepInv
  intro e s t hinv ha
  obtain ⟨u, rfl⟩ := act_block ha
  exact ⟨rfl, act_keeps_inv hinv ha⟩

/-- Settles O33: every draw's memory is canonical and in range, and so is the empty one. -/
theorem resetMeetsInv : Obligations.ResetMeetsInv := by
  unfold Obligations.ResetMeetsInv
  exact ⟨Block.resetWith_inv _ reset_mem_wf (by simp), powerOn_inv⟩

/-- Settles O27: each instruction keeps the registers that R21 does not let it write. -/
theorem frameRegister : Obligations.FrameRegister := by
  unfold Obligations.FrameRegister
  intro P o b t
  refine ⟨fun h => ?adv, fun h => ?bdv, fun h => ?cdv, fun h => ?bst, fun h => ?bxl,
    fun h => ?bxc⟩ <;>
    obtain ⟨hreg, hout, hprog⟩ := exec_writes_only_dest h rfl
  case adv =>
    exact ⟨hreg .b nofun, hreg .c nofun, hout, hprog, exec_keepsStatus_or_tookFault h⟩
  case bdv =>
    exact ⟨hreg .a nofun, hreg .c nofun, hout, hprog, exec_keepsStatus_or_tookFault h⟩
  case cdv =>
    exact ⟨hreg .a nofun, hreg .b nofun, hout, hprog, exec_keepsStatus_or_tookFault h⟩
  case bst =>
    refine ⟨hreg .a nofun, hreg .c nofun, hout, hprog, ?_⟩
    exact (complete_comboDigit_cases h).imp_left fun ⟨d, ht⟩ =>
      ht ▸ (completed_advance_writeReg b .b (zextDigit P d)).status
  case bxl =>
    exact ⟨hreg .a nofun, hreg .c nofun, hout, hprog, xorIntoB_keepsStatus h⟩
  case bxc =>
    exact ⟨hreg .a nofun, hreg .c nofun, hout, hprog, xorIntoB_keepsStatus h⟩

/-- Settles O28: JNZ sets the ip; OUT appends its digit, or takes the fault of operand 7. -/
theorem frameOutJnz : Obligations.FrameOutJnz := by
  unfold Obligations.FrameOutJnz
  intro P o b t
  refine ⟨fun h => ?out, fun h => ?jnz⟩
  case out =>
    refine ⟨?_, exec_keepsProgram h, ?_⟩
    · rcases complete_comboDigit_cases h with ⟨d, rfl⟩ | ⟨-, -, -, hregs, -, -⟩
      · rfl
      · exact hregs
    · exact (complete_comboDigit_cases h).imp_left fun ⟨d, ht⟩ =>
        ht ▸ ⟨(completed_advance_emit b d).status, d, rfl⟩
  case jnz =>
    refine ⟨?_, exec_keepsProgram h, ?_, exec_keeps_output h (by simp)⟩ <;> cases h
    · rfl
    · exact (completed_jump b o).status

/-- Settles O37: the invariant puts PLEN, and so the ip of a fetch, within PMAX. -/
theorem runNeverStuck : Obligations.RunNeverStuck := by
  unfold Obligations.RunNeverStuck
  exact ⟨fun s hinv hr => hinv.step_next hr,
    fun P es draw t ha hr => (acts_powerOn_inv ha).step_next hr⟩

/-- Settles O38: by induction over the run, from the state that START leaves. -/
theorem ipRange : Obligations.IpRange := by
  unfold Obligations.IpRange
  intro P
  refine ⟨fun b t u x y z n hinv hstart hrun => ?_, (ipw_le_iff P _).1 le_rfl, three_le_ipw P,
    fun n => (ipw_le_iff P n).2⟩
  have ht : t.Inv := hostStart_keeps_inv hinv hstart
  have hip : t.ip = 0 := by
    obtain ⟨-, -, hst⟩ := hostStart_cases hstart
    obtain rfl := Block.state_inj hst
    rfl
  obtain ⟨hu, hule⟩ := run_inv_and_ip_le ht (by simp [hip]) hrun
  exact ⟨hip, hule, fun _ hlt => ipInc_toNat (hlt.trans_le hu.plenLe)⟩

/-- Settles O40: the canonical form lists exactly the cells that do not read as an unlisted one. -/
theorem memoryLaws : Obligations.MemoryLaws := by
  unfold Obligations.MemoryLaws
  exact ⟨Memory.read_write, fun _ a v => Memory.write_keeps_wf a v,
    fun _ _ => Memory.eq_of_read_eq⟩

/-- Settles O42: a register that changed is the one destination of the instruction. -/
theorem writeTable : Obligations.WriteTable := by
  unfold Obligations.WriteTable
  intro P i b t h
  refine ⟨fun ha => eq_adv_of_destOf (destOf_of_reg_ne h ha),
    fun hb => mem_writers_of_destOf_b (destOf_of_reg_ne h hb),
    fun hc => eq_cdv_of_destOf (destOf_of_reg_ne h hc),
    fun ho => Decidable.not_not.1 fun hi => ho (exec_keeps_output h hi), ?_⟩
  cases hd : destOf i with
  | none => exact ⟨.a, fun e _ => exec_keeps_reg h (by simp [hd])⟩
  | some d => exact ⟨d, (exec_writes_only_dest h hd).1⟩

/-- Settles O45: by the kind of event, in the order core step, RESET, LOAD, START, READ. -/
theorem statusWrittenBy : Obligations.StatusWrittenBy := by
  unfold Obligations.StatusWrittenBy
  intro P e b t ha
  rcases act_cases ha with ⟨rfl, hs⟩ | ⟨draw, rfl, ht⟩ | ⟨ws, rfl, hl⟩ | ⟨x, y, z, rfl, hs⟩ |
    ⟨_, -, ht⟩
  · have hr : b.status = .run := (step_cases hs).1
    have hplen : t.plen = b.plen := step_keeps_plen hs
    rcases step_status_cases hs with ⟨hst, hcode, hfip⟩ | ⟨hst, hcode, hfip⟩ | ⟨hst, hfault⟩
    · exact ⟨fun hne => absurd hst hne, fun hne => by simp [hcode, hfip] at hne,
        fun hne => absurd hplen hne⟩
    · exact ⟨fun _ => .inl ⟨rfl, hr, .inl hst⟩, fun hne => by simp [hcode, hfip] at hne,
        fun hne => absurd hplen hne⟩
    · exact ⟨fun _ => .inl ⟨rfl, hr, .inr hst⟩, fun _ => .inl ⟨rfl, hst, hfault⟩,
        fun hne => absurd hplen hne⟩
  · obtain rfl := Block.state_inj ht
    exact ⟨fun _ => .inr (.inr ⟨draw, rfl, rfl⟩), fun _ => .inr ⟨.inr ⟨draw, rfl⟩, rfl, rfl⟩,
      fun _ => .inr ⟨draw, rfl, rfl⟩⟩
  · obtain ⟨-, hn, ht⟩ := hostLoad_cases hl
    obtain rfl := Block.state_inj ht
    have hplen := load_plen_toNat hn
    exact ⟨fun hne => absurd rfl hne, fun hne => by simp at hne,
      fun _ => .inl ⟨ws, rfl, hplen, hplen.trans_le hn⟩⟩
  · obtain ⟨hr, -, ht⟩ := hostStart_cases hs
    obtain rfl := Block.state_inj ht
    exact ⟨fun _ => .inr (.inl ⟨x, y, z, rfl, hr, rfl⟩),
      fun _ => .inr ⟨.inl ⟨x, y, z, rfl⟩, rfl, rfl⟩, fun hne => absurd rfl hne⟩
  · obtain rfl := Block.state_inj ht
    exact ⟨fun hne => absurd rfl hne, fun hne => by simp at hne, fun hne => absurd rfl hne⟩

/-- Settles O50: a narrower register keeps its value when it is zero-extended. -/
theorem readCommand : Obligations.ReadCommand := by
  unfold Obligations.ReadCommand
  intro P b
  have htwo : 2 ≤ P.xlen := le_trans (by decide) P.xlen_ge
  exact ⟨fun _ => rfl, BitVec.toNat_setWidth_of_le htwo, BitVec.toNat_setWidth_of_le htwo,
    fun hw => ⟨BitVec.toNat_setWidth_of_le hw, BitVec.toNat_setWidth_of_le hw,
      BitVec.toNat_setWidth_of_le hw⟩,
    rfl, rfl, rfl, rfl, rfl, rfl, rfl⟩

end Sys2Proof.Machine
end

section
/-! The obligation about program memory during a run (R51). -/

namespace Sys2Proof.Machine

/-- A step stores nothing to program memory, whether it halts, completes or takes a fault (R51). -/
theorem step_keeps_pmem {P : Config.Params} {b t : Block P} (h : step b.state = .next t.state) :
    t.pmem = b.pmem := by
  obtain ⟨-, rfl | ⟨-, -, hc | ⟨c, rfl⟩⟩⟩ := step_halted_completed_or_raised h
  · rfl
  · exact hc.pmem
  · rfl

/-- Settles O39: by the kind of event, in the order core step, RESET, LOAD, START, READ; all but RESET
and LOAD keep program memory and PLEN. -/
theorem programImmutable : Obligations.ProgramImmutable := by
  unfold Obligations.ProgramImmutable
  intro P
  refine ⟨fun b t hs => ⟨step_keeps_pmem hs, step_keeps_plen hs⟩,
    fun ws b t hr hl => (hostLoad_cases hl).1 hr, fun e b t ha hne => ?_⟩
  rcases act_cases ha with ⟨-, hs⟩ | ⟨draw, rfl, -⟩ | ⟨ws, rfl, hl⟩ | ⟨x, y, z, -, hs⟩ | ⟨_, -, ht⟩
  · simp [step_keeps_pmem hs, step_keeps_plen hs] at hne
  · exact .inr ⟨draw, rfl⟩
  · exact .inl ⟨ws, rfl, (hostLoad_cases hl).1⟩
  · obtain ⟨-, -, ht⟩ := hostStart_cases hs
    obtain rfl := Block.state_inj ht
    simp at hne
  · obtain rfl := Block.state_inj ht
    simp at hne

end Sys2Proof.Machine
end

section
/-!
The instruction word, the decoder and the encoder, the flat digits of a program, and the written
forms of an instruction (R60 to R68).
-/

namespace Sys2Proof

/-! ### The fields of a word (R61) -/

@[simp] theorem opcOf_pack (opc opd : Digit) : opcOf (pack opc opd) = opc :=
  BitVec.extractLsb'_append_eq_left

@[simp] theorem opdOf_pack (opc opd : Digit) : opdOf (pack opc opd) = opd :=
  BitVec.extractLsb'_append_eq_right

theorem append_eq_pack (opc opd : Digit) : opc ++ opd = pack opc opd := rfl

theorem toNat_opcOf (w : InstrWord) : (opcOf w).toNat = w.toNat / 8 := by
  have hw := w.isLt
  rw [opcOf, BitVec.extractLsb'_toNat, Nat.shiftRight_eq_div_pow]
  omega

theorem toNat_opdOf (w : InstrWord) : (opdOf w).toNat = w.toNat % 8 := by
  simp [opdOf, BitVec.extractLsb'_toNat]

/-- A word is its two fields: `word = opc * 8 + opd` (R61). -/
theorem toNat_eq_fields (w : InstrWord) : w.toNat = (opcOf w).toNat * 8 + (opdOf w).toNat := by
  rw [toNat_opcOf, toNat_opdOf]
  omega

theorem toNat_pack (opc opd : Digit) : (pack opc opd).toNat = opc.toNat * 8 + opd.toNat := by
  rw [toNat_eq_fields, opcOf_pack, opdOf_pack]

@[simp] theorem pack_opcOf_opdOf (w : InstrWord) : pack (opcOf w) (opdOf w) = w :=
  BitVec.eq_of_toNat_eq (by rw [toNat_pack, ← toNat_eq_fields])

/-- The select mask of R63 keeps the opcode field. -/
theorem opcOf_and_mask (w : InstrWord) : opcOf (w &&& 0x38) = opcOf w := by
  have hones : opcOf 0x38 = BitVec.allOnes 3 := rfl
  rw [opcOf, BitVec.extractLsb'_and, ← opcOf, ← opcOf, hones, BitVec.and_allOnes]

/-! ### The decoder and the encoder (R63, R65) -/

/-- The fields of the encoding hold of every instruction, from the lemma of each constructor. -/
theorem fields_encode (i : Instr) : Laws.Fields.Statement i :=
  match i with
  | .adv o => Laws.Fields.adv o
  | .bxl o => Laws.Fields.bxl o
  | .bst o => Laws.Fields.bst o
  | .jnz o => Laws.Fields.jnz o
  | .bxc o => Laws.Fields.bxc o
  | .out o => Laws.Fields.out o
  | .bdv o => Laws.Fields.bdv o
  | .cdv o => Laws.Fields.cdv o

theorem wf_eq_true (i : Instr) : i.wf = true := by
  obtain ⟨hwf, -, -⟩ := fields_encode i
  exact hwf

theorem opdOf_encode (i : Instr) : opdOf (encode i) = i.opd := by
  obtain ⟨-, hopd, -⟩ := fields_encode i
  exact hopd

/-- Each word pattern of R63 is a packed pair, whose opcode field selects its row of the decoder. -/
theorem decode_encode (i : Instr) : decode (encode i) = i := by
  cases i <;> simp [decode, encode, append_eq_pack]

theorem encode_decode (w : InstrWord) : encode (decode w) = w := by
  have hw := pack_opcOf_opdOf w
  unfold decode
  split <;> rename_i h <;> rwa [h] at hw

theorem decodeRaw_toNat (w : InstrWord) : decodeRaw w.toNat = .ok (decode w) := by
  simp [decodeRaw, w.isLt]

theorem decodeRaw_of_ge {n : Nat} (h : 64 ≤ n) : decodeRaw n = .error (.wordRange n) :=
  if_neg h.not_gt

/-- One row of R63: a word that matches an opcode under the select mask is the instruction of that
opcode with its own operand, within the row's 8 words. -/
theorem decode_of_mask_match {w : InstrWord} {opc : Digit} {i : Instr}
    (hmatch : w &&& 0x38 = pack opc 0) (hi : encode i = pack opc (opdOf w)) :
    decode w = i ∧ opc.toNat * 8 ≤ w.toNat ∧ w.toNat ≤ opc.toNat * 8 + 7 ∧
      (decode w).kind = i.kind := by
  have hopc : opcOf w = opc := by rw [← opcOf_and_mask, hmatch, opcOf_pack]
  have hdecode : decode w = i := by rw [← decode_encode i, hi, ← hopc, pack_opcOf_opdOf]
  have hnum := hopc ▸ toNat_eq_fields w
  have hopd := (opdOf w).isLt
  exact ⟨hdecode, by omega, by omega, by rw [hdecode]⟩

/-! ### The flat digits of a program (R60) -/

theorem digitOk_iff (n : Nat) : digitOk n = true ↔ n < 8 := by
  simp [digitOk]

theorem digitOfNat_of_lt {n : Nat} (h : n < 8) : digitOfNat n = .ok (BitVec.ofNat 3 n) :=
  if_pos ((digitOk_iff n).2 h)

theorem digitOfNat_of_ge {n : Nat} (h : 8 ≤ n) : digitOfNat n = .error (.digitRange n) :=
  if_neg fun hn => h.not_gt ((digitOk_iff n).1 hn)

@[simp] theorem digitsOfWords_nil : digitsOfWords [] = [] := rfl

@[simp] theorem digitsOfWords_cons (w : InstrWord) (ws : List InstrWord) :
    digitsOfWords (w :: ws) = (opcOf w).toNat :: (opdOf w).toNat :: digitsOfWords ws := rfl

theorem length_digitsOfWords (ws : List InstrWord) :
    (digitsOfWords ws).length = 2 * ws.length := by
  induction ws with
  | nil => rfl
  | cons w ws ih => simp [ih, Nat.mul_add]

/-- Digits 2i and 2i+1 of a program are the fields of its pair i (R60). -/
theorem getElem?_digitsOfWords (ws : List InstrWord) (i : Nat) :
    (digitsOfWords ws)[2 * i]? = ws[i]?.map (fun w => (opcOf w).toNat) ∧
      (digitsOfWords ws)[2 * i + 1]? = ws[i]?.map (fun w => (opdOf w).toNat) := by
  induction ws generalizing i with
  | nil => simp
  | cons w ws ih =>
    cases i with
    | zero => simp
    | succ i => simpa [Nat.mul_add] using ih i

/-- A pair of digits in range is read as a word, before the words of the rest. -/
theorem wordsOfDigits_cons_cons {c d : Nat} (hc : c < 8) (hd : d < 8) (ds : List Nat) :
    wordsOfDigits (c :: d :: ds) =
      (wordsOfDigits ds).map (pack (BitVec.ofNat 3 c) (BitVec.ofNat 3 d) :: ·) := by
  cases h : wordsOfDigits ds <;>
    simp [wordsOfDigits, h, digitOfNat_of_lt hc, digitOfNat_of_lt hd, Except.map]

theorem wordsOfDigits_opcode_range {c : Nat} (h : 8 ≤ c) (d : Nat) (ds : List Nat) :
    wordsOfDigits (c :: d :: ds) = .error (.digitRange c) := by
  simp [wordsOfDigits, digitOfNat_of_ge h]

theorem wordsOfDigits_operand_range {c d : Nat} (hc : c < 8) (hd : 8 ≤ d) (ds : List Nat) :
    wordsOfDigits (c :: d :: ds) = .error (.digitRange d) := by
  simp [wordsOfDigits, digitOfNat_of_lt hc, digitOfNat_of_ge hd]

theorem wordsOfDigits_digitsOfWords (ws : List InstrWord) :
    wordsOfDigits (digitsOfWords ws) = .ok ws := by
  induction ws with
  | nil => rfl
  | cons w ws ih =>
    rw [digitsOfWords_cons, wordsOfDigits_cons_cons (opcOf w).isLt (opdOf w).isLt, ih]
    simp [Except.map]

theorem digitsOk_cons_cons (c d : Nat) (ds : List Nat) :
    digitsOk (c :: d :: ds) = true ↔ c < 8 ∧ d < 8 ∧ digitsOk ds = true := by
  have hparity : (ds.length + 1 + 1) % 2 = ds.length % 2 := Nat.add_mod_right ds.length 2
  simp [digitsOk, digitOk_iff, hparity, and_assoc]

theorem digitsOk_digitsOfWords (ws : List InstrWord) : digitsOk (digitsOfWords ws) = true := by
  induction ws with
  | nil => rfl
  | cons w ws ih =>
    rw [digitsOfWords_cons, digitsOk_cons_cons]
    exact ⟨(opcOf w).isLt, (opdOf w).isLt, ih⟩

/-- A well-formed digit list is the flat form of some program (R60). -/
theorem exists_words_of_digitsOk {ds : List Nat} (h : digitsOk ds = true) :
    ∃ ws, digitsOfWords ws = ds := by
  induction ds using List.twoStepInduction with
  | nil => exact ⟨[], rfl⟩
  | singleton c => simp [digitsOk] at h
  | cons_cons c d ds ih _ =>
    obtain ⟨hc, hd, hds⟩ := (digitsOk_cons_cons c d ds).1 h
    obtain ⟨ws, rfl⟩ := ih hds
    exact ⟨pack (BitVec.ofNat 3 c) (BitVec.ofNat 3 d) :: ws,
      by simp [Nat.mod_eq_of_lt hc, Nat.mod_eq_of_lt hd]⟩

/-- A digit list that is not a program has a digit out of range or an odd length, and is refused. -/
theorem wordsOfDigits_error_of_not_digitsOk {ds : List Nat} (h : digitsOk ds = false) :
    ∃ e, wordsOfDigits ds = .error e := by
  induction ds using List.twoStepInduction with
  | nil => simp [digitsOk] at h
  | singleton c => exact ⟨.oddLength, rfl⟩
  | cons_cons c d ds ih _ =>
    rcases Nat.lt_or_ge c 8 with hc | hc
    · rcases Nat.lt_or_ge d 8 with hd | hd
      · rw [← Bool.not_eq_true, digitsOk_cons_cons] at h
        have hds : digitsOk ds = false := by simpa [hc, hd] using h
        obtain ⟨e, he⟩ := ih hds
        exact ⟨e, by rw [wordsOfDigits_cons_cons hc hd, he]; rfl⟩
      · exact ⟨_, wordsOfDigits_operand_range hc hd ds⟩
    · exact ⟨_, wordsOfDigits_opcode_range hc d ds⟩

/-- A digit list is read to the words whose flat digits it is (R60). -/
theorem wordsOfDigits_eq_ok_iff (ds : List Nat) (ws : List InstrWord) :
    wordsOfDigits ds = .ok ws ↔ digitsOk ds = true ∧ digitsOfWords ws = ds := by
  refine ⟨fun h => ?_, fun ⟨_, h⟩ => h ▸ wordsOfDigits_digitsOfWords ws⟩
  cases hok : digitsOk ds with
  | false =>
    obtain ⟨e, he⟩ := wordsOfDigits_error_of_not_digitsOk hok
    cases he.symm.trans h
  | true =>
    obtain ⟨vs, rfl⟩ := exists_words_of_digitsOk hok
    cases (wordsOfDigits_digitsOfWords vs).symm.trans h
    exact ⟨rfl, rfl⟩

/-- A digit list is refused exactly when it is no program (R60, R65). -/
theorem digitsOk_eq_false_iff (ds : List Nat) :
    digitsOk ds = false ↔ ∃ e, wordsOfDigits ds = .error e := by
  refine ⟨wordsOfDigits_error_of_not_digitsOk,
    fun ⟨e, he⟩ => Bool.eq_false_of_not_eq_true fun hok => ?_⟩
  obtain ⟨ws, rfl⟩ := exists_words_of_digitsOk hok
  cases (wordsOfDigits_digitsOfWords ws).symm.trans he

/-- An odd number of digits, all in range, is refused at its last digit (R60). -/
theorem wordsOfDigits_odd {ds : List Nat} (hall : ds.all digitOk = true)
    (hodd : ds.length % 2 = 1) : wordsOfDigits ds = .error .oddLength := by
  induction ds using List.twoStepInduction with
  | nil => simp at hodd
  | singleton c => rfl
  | cons_cons c d ds ih _ =>
    simp only [List.all_cons, Bool.and_eq_true, digitOk_iff] at hall
    obtain ⟨hc, hd, hds⟩ := hall
    have hrest : ds.length % 2 = 1 := (Nat.add_mod_right ds.length 2).symm.trans hodd
    rw [wordsOfDigits_cons_cons hc hd, ih hds hrest]
    rfl

end Sys2Proof

/-! ### The written forms (R68) -/

namespace Sys2Proof.Machine

theorem digitOfChar_charOfDigit (d : Digit) : digitOfChar (charOfDigit d) = some d := by
  revert d
  decide

/-- A mnemonic is three letters, and they are read back as its opcode. -/
theorem mnemonicOf_spelled (opc : Digit) :
    ∃ x y z, mnemonicOf opc = [x, y, z] ∧ opcOfMnemonic x y z = some opc :=
  match opc with
  | 0 => ⟨_, _, _, rfl, by decide⟩
  | 1 => ⟨_, _, _, rfl, by decide⟩
  | 2 => ⟨_, _, _, rfl, by decide⟩
  | 3 => ⟨_, _, _, rfl, by decide⟩
  | 4 => ⟨_, _, _, rfl, by decide⟩
  | 5 => ⟨_, _, _, rfl, by decide⟩
  | 6 => ⟨_, _, _, rfl, by decide⟩
  | 7 => ⟨_, _, _, rfl, by decide⟩

theorem opcOfMnemonic_congr {x y z x' y' z' : Char} (hx : x.toUpper = x'.toUpper)
    (hy : y.toUpper = y'.toUpper) (hz : z.toUpper = z'.toUpper) :
    opcOfMnemonic x y z = opcOfMnemonic x' y' z' := by
  simp only [opcOfMnemonic, hx, hy, hz]

theorem parseInstr_pair (x y z d : Char) : parseInstr ['(', x, y, z, ',', d, ')'] =
    instrOfFields (opcOfMnemonic x y z) (digitOfChar d) := rfl

theorem parseInstr_line (x y z d : Char) : parseInstr [x, y, z, ' ', d] =
    instrOfFields (opcOfMnemonic x y z) (digitOfChar d) := by
  simp [parseInstr]

theorem parseInstr_flat (c d : Char) : parseInstr [c, ',', d] =
    instrOfFields (digitOfChar c) (digitOfChar d) := by
  simp [parseInstr]

/-- The two fields of an instruction determine it (R61). -/
theorem instrOfFields_encode (i : Instr) :
    instrOfFields (some (opcOf (encode i))) (some i.opd) = some i := by
  rw [instrOfFields, ← opdOf_encode, pack_opcOf_opdOf, decode_encode]

end Sys2Proof.Machine
end

section
/-! The obligations about the encoding (R60 to R68). -/

namespace Sys2Proof.Machine

/-- Settles O5: by induction over a program for its digits, and over a digit list two digits at a
time. -/
theorem programDigits : Obligations.ProgramDigits := by
  unfold Obligations.ProgramDigits
  refine ⟨fun prog => ?_, wordsOfDigits_eq_ok_iff, fun ws i h => ?_⟩
  · simp [wordsOfDigits_digitsOfWords, Except.map, Function.comp_def, decode_encode]
  · obtain ⟨hopc, hopd⟩ := getElem?_digitsOfWords ws i
    rw [List.getElem?_eq_getElem h] at hopc hopd
    exact ⟨length_digitsOfWords ws, hopc, hopd⟩

/-- Settles O6: reading a list two digits at a time meets a digit out of range or an odd last digit
exactly when the list is not well-formed. -/
theorem badDigitsRefused : Obligations.BadDigitsRefused := by
  unfold Obligations.BadDigitsRefused
  exact ⟨digitsOk_eq_false_iff, fun _ => wordsOfDigits_odd, fun _ d ds =>
    ⟨fun hc => wordsOfDigits_opcode_range hc d ds,
      fun hc hd => wordsOfDigits_operand_range hc hd ds⟩⟩

/-- Settles O1: the fields of a word are its quotient and remainder by 8, so they recompose it. -/
theorem wordFields : Obligations.WordFields := by
  unfold Obligations.WordFields
  exact ⟨fun opc opd => ⟨opcOf_pack opc opd, opdOf_pack opc opd, toNat_pack opc opd⟩,
    fun w => ⟨rfl, rfl, (toNat_opcOf w).symm, (toNat_opdOf w).symm⟩⟩

/-- Settles O2: each match value is the word of its opcode with operand 0. -/
theorem opcodeMap : Obligations.OpcodeMap := by
  unfold Obligations.OpcodeMap
  intro w
  refine ⟨fun h => ?adv, fun h => decode_of_mask_match (opc := 1) (i := .bxl _) h rfl,
    fun h => decode_of_mask_match (opc := 2) (i := .bst _) h rfl,
    fun h => decode_of_mask_match (opc := 3) (i := .jnz _) h rfl,
    fun h => decode_of_mask_match (opc := 4) (i := .bxc _) h rfl,
    fun h => decode_of_mask_match (opc := 5) (i := .out _) h rfl,
    fun h => decode_of_mask_match (opc := 6) (i := .bdv _) h rfl,
    fun h => decode_of_mask_match (opc := 7) (i := .cdv _) h rfl⟩
  obtain ⟨hdecode, -, hrange⟩ := decode_of_mask_match (opc := 0) (i := .adv _) h rfl
  exact ⟨hdecode, hrange⟩

/-- Settles O3: the encoder's patterns are the packed fields, which determine the word. -/
theorem decodeEncode : Obligations.DecodeEncode := by
  unfold Obligations.DecodeEncode
  exact ⟨fun i => ⟨wf_eq_true i, decode_encode i⟩,
    fun w => ⟨encode_decode w, decodeRaw_toNat w⟩, fun _ => decodeRaw_of_ge⟩

/-- Settles O4: each sample is the word that its instruction encodes to. -/
theorem sampleWords : Obligations.SampleWords := by
  unfold Obligations.SampleWords
  exact ⟨decode_encode (.adv 1), decode_encode (.bxl 7), decode_encode (.bst 6),
    decode_encode (.jnz 0), decode_encode (.bxc 0), decode_encode (.out 4),
    decode_encode (.bdv 3), decode_encode (.cdv 5)⟩

/-- Settles O7: every form writes the two fields of the instruction, and they determine it; a mnemonic
is read through its upper case only. -/
theorem writtenForms : Obligations.WrittenForms := by
  unfold Obligations.WrittenForms
  refine ⟨fun i => ?forms, fun x y z x' y' z' d hx hy hz => ?ignoresCase⟩
  case forms =>
    obtain ⟨x, y, z, hspell, hread⟩ := mnemonicOf_spelled (opcOf (encode i))
    simp [pairForm, flatForm, lineForm, hspell, hread, parseInstr_pair, parseInstr_line,
      parseInstr_flat, digitOfChar_charOfDigit, instrOfFields_encode]
  case ignoresCase =>
    simp only [parseInstr_pair, parseInstr_line, opcOfMnemonic_congr hx hy hz, and_self]

end Sys2Proof.Machine
end

section
/-!
The ALU at any register width: exact division by a power of two and its shift form, XOR, modulo 8,
and that none of their results depends on the width (R83 to R85, R90, R91).
-/

namespace Sys2Proof.Machine

/-! ### Integers and patterns -/

/-- An integer in the range of `w` bits is the value of its pattern (R7). -/
theorem toInt_ofInt_of_range {w : Nat} {x : Int} (hlow : -2 ^ w ≤ 2 * x) (hhigh : 2 * x < 2 ^ w) :
    (BitVec.ofInt w x).toInt = x := by
  rw [BitVec.toInt_ofInt]
  refine Int.bmod_eq_of_le_mul_two ?_ ?_ <;> push_cast <;> omega

/-- Adding an integer to a register value is exact when the sum is in range (R91). -/
theorem toInt_add_ofInt_of_range {w : Nat} {a : BitVec w} {x : Int}
    (hlow : -2 ^ w ≤ 2 * (a.toInt + x)) (hhigh : 2 * (a.toInt + x) < 2 ^ w) :
    (a + BitVec.ofInt w x).toInt = a.toInt + x := by
  have hsum : a + BitVec.ofInt w x = BitVec.ofInt w (a.toInt + x) := by
    rw [BitVec.ofInt_add, BitVec.ofInt_toInt]
  rw [hsum, toInt_ofInt_of_range hlow hhigh]

/-- A negative register value is the complement of a natural number (R7). -/
theorem toInt_eq_negSucc_of_msb {w : Nat} {a : BitVec w} (h : a.msb = true) :
    a.toInt = Int.negSucc (~~~a).toNat := by
  have hlt := a.isLt
  rw [BitVec.toInt_eq_msb_cond, if_pos h, BitVec.toNat_not]
  omega

/-! ### Division by a power of two (R83) -/

/-- The quotient is sign times magnitude, `sign(a) * floor(|a| / 2^n)` (R83). -/
theorem tdiv_two_pow_eq_sign_mul (a : Int) (n : Nat) :
    a.tdiv (2 ^ n) = a.sign * ((a.natAbs / 2 ^ n : Nat) : Int) := by
  have hpow : ((2 : Int) ^ n).natAbs = 2 ^ n := Int.natAbs_pow 2 n
  have hsign : ((2 : Int) ^ n).sign = 1 := Int.sign_eq_one_of_pos (by positivity)
  rw [← Int.sign_mul_natAbs (a.tdiv (2 ^ n)), Int.sign_tdiv, Int.natAbs_tdiv, hpow, hsign, mul_one]
  change _ * ((a.natAbs / 2 ^ n : Nat) : Int) = _
  split
  case isTrue hlt => simp [Nat.div_eq_of_lt hlt]
  case isFalse => rfl

/-- The quotient of a register value fits its register: it is no larger than the dividend, and not
positive when the dividend is not (R83). -/
theorem toInt_ofInt_tdiv {w : Nat} (a : BitVec w) (n : Nat) :
    (BitVec.ofInt w (a.toInt.tdiv (2 ^ n))).toInt = a.toInt.tdiv (2 ^ n) := by
  have hlow := a.le_two_mul_toInt
  have hhigh := a.two_mul_toInt_lt
  have habs := Int.natAbs_tdiv_le_natAbs a.toInt (2 ^ n)
  have hneg : a.toInt ≤ 0 → a.toInt.tdiv (2 ^ n) ≤ 0 := fun ha => by
    have hq := Int.tdiv_nonneg (Int.neg_nonneg_of_nonpos ha) (show (0 : Int) ≤ 2 ^ n by positivity)
    rwa [Int.neg_tdiv, Int.neg_nonneg] at hq
  exact toInt_ofInt_of_range (by omega) (by omega)

theorem natAbs_toInt_lt {w : Nat} (a : BitVec w) : a.toInt.natAbs < 2 ^ w := by
  have hlow := a.le_two_mul_toInt
  have hhigh := a.two_mul_toInt_lt
  have hpos : (0 : Int) < 2 ^ w := by positivity
  have hcast : ((2 ^ w : Nat) : Int) = 2 ^ w := by norm_cast
  omega

/-- A power of two at or above the width exceeds every dividend of that width (R83). -/
theorem tdiv_two_pow_of_width_le {w n : Nat} (a : BitVec w) (h : w ≤ n) :
    a.toInt.tdiv (2 ^ n) = 0 := by
  have hlt : a.toInt.natAbs < 2 ^ n :=
    (natAbs_toInt_lt a).trans_le (Nat.pow_le_pow_right Nat.two_pos h)
  rw [tdiv_two_pow_eq_sign_mul, Nat.div_eq_of_lt hlt, Int.natCast_zero, mul_zero]

theorem tdiv_of_neg {w : Nat} (a : BitVec w) {k : Int} (h : k < 0) :
    tdiv a k = .error .negExponent :=
  (tdiv_error_iff a k _).2 ⟨h, rfl⟩

/-- The model's cut-off at `k >= w` is the exact quotient (R83, log 18). -/
theorem tdiv_of_nonneg {w : Nat} (a : BitVec w) {k : Int} (h : 0 ≤ k) :
    tdiv a k = .ok (BitVec.ofInt w (a.toInt.tdiv (2 ^ k.toNat))) := by
  unfold tdiv
  rw [if_neg h.not_gt]
  split
  case isTrue hw => rw [tdiv_two_pow_of_width_le a (by omega)]; rfl
  case isFalse => rfl

/-- What a division answers is the exact quotient (R83). -/
theorem tdiv_exact {w : Nat} (a : BitVec w) {k : Int} (h : 0 ≤ k) :
    ∃ v, tdiv a k = .ok v ∧ v.toInt = a.toInt.tdiv (2 ^ k.toNat) :=
  ⟨_, tdiv_of_nonneg a h, toInt_ofInt_tdiv a _⟩

/-- A division is determined by the value of its quotient. -/
theorem tdiv_eq_ok_iff {w : Nat} (a v : BitVec w) {k : Int} (h : 0 ≤ k) :
    tdiv a k = .ok v ↔ v.toInt = a.toInt.tdiv (2 ^ k.toNat) := by
  rw [tdiv_of_nonneg a h, Except.ok.injEq, eq_comm, ← BitVec.toInt_inj, toInt_ofInt_tdiv]

theorem tdiv_natCast_eq_ok_iff {w : Nat} (a v : BitVec w) (k : Nat) :
    tdiv a k = .ok v ↔ v.toInt = a.toInt.tdiv (2 ^ k) := by
  rw [tdiv_eq_ok_iff a v (Int.natCast_nonneg k), Int.toNat_natCast]

/-! ### The shift form (R91) -/

/-- Rounding toward zero is rounding down after the bias of a negative dividend is added (R91). -/
theorem tdiv_two_pow_eq_biased_ediv (a : Int) (k : Nat) :
    a.tdiv (2 ^ k) = (a + if a < 0 then 2 ^ k - 1 else 0) / 2 ^ k := by
  have hpow : (0 : Int) < 2 ^ k := by positivity
  split
  case isTrue ha =>
    have hdecomp := Int.mul_tdiv_add_tmod a (2 ^ k)
    have hlow := Int.lt_tmod_of_pos a hpow
    have hhigh := Int.tmod_nonneg (2 ^ k) (Int.neg_nonneg_of_nonpos ha.le)
    rw [Int.neg_tmod] at hhigh
    have hsum : a + (2 ^ k - 1) = a.tmod (2 ^ k) + (2 ^ k - 1) + 2 ^ k * a.tdiv (2 ^ k) := by omega
    rw [hsum, Int.add_mul_ediv_left _ _ hpow.ne', Int.ediv_eq_zero_of_lt (by omega) (by omega),
      zero_add]
  case isFalse ha => rw [add_zero, Int.tdiv_eq_ediv_of_nonneg (Int.not_lt.1 ha)]

/-- The biased addition does not overflow: it adds at most `2^(w-1) - 1`, to a negative value
(R91). -/
theorem toInt_add_bias {w k : Nat} (a : BitVec w) (h : k < w) :
    (a + (if a.toInt < 0 then BitVec.ofInt w (2 ^ k - 1) else 0)).toInt =
      a.toInt + (if a.toInt < 0 then 2 ^ k - 1 else 0) := by
  split
  case isTrue ha =>
    have hlow := a.le_two_mul_toInt
    have hpos : (0 : Int) < 2 ^ k := by positivity
    have hbias : (2 : Int) ^ k * 2 ≤ 2 ^ w := pow_succ (2 : Int) k ▸ pow_le_pow_right₀ (by decide) h
    exact toInt_add_ofInt_of_range (by omega) (by omega)
  case isFalse => simp

theorem toInt_sshiftRight_eq_ediv {w : Nat} (a : BitVec w) (k : Nat) :
    (a.sshiftRight k).toInt = a.toInt / 2 ^ k := by
  rw [BitVec.toInt_sshiftRight, Int.shiftRight_eq_div_pow]
  push_cast
  rfl

theorem tdiv_eq_tdivShift {w k : Nat} (a : BitVec w) (h : k < w) :
    tdiv a k = .ok (tdivShift a k) := by
  rw [tdiv_natCast_eq_ok_iff, tdivShift, toInt_sshiftRight_eq_ediv, toInt_add_bias a h,
    tdiv_two_pow_eq_biased_ediv]

/-- The plain arithmetic shift is one below the quotient of a negative dividend that `2^k` does not
divide (R91). -/
theorem tdiv_ne_sshiftRight {w : Nat} {a : BitVec w} {k : Nat} (hneg : a.toInt < 0)
    (hdvd : ¬ (2 ^ k : Int) ∣ a.toInt) : tdiv a k ≠ .ok (a.sshiftRight k) := by
  have hsign : ((2 : Int) ^ k).sign = 1 := Int.sign_eq_one_of_pos (by positivity)
  have hq : a.toInt.tdiv (2 ^ k) = a.toInt / 2 ^ k + 1 := by
    rw [Int.tdiv_eq_ediv, if_neg (by simp [hneg, hdvd]), hsign]
  rw [Ne, tdiv_natCast_eq_ok_iff, toInt_sshiftRight_eq_ediv, hq]
  omega

/-! ### XOR (R84) -/

/-- XOR on patterns is XOR on unbounded two's-complement integers (R90). -/
theorem toInt_xorAlu {w : Nat} (a b : BitVec w) :
    (xorAlu a b).toInt = Int.xor a.toInt b.toInt := by
  unfold xorAlu
  cases ha : a.msb <;> cases hb : b.msb
  case false.false =>
    rw [BitVec.toInt_eq_toNat_of_msb (by simp [ha, hb]), BitVec.toInt_eq_toNat_of_msb ha,
      BitVec.toInt_eq_toNat_of_msb hb, BitVec.toNat_xor]
    rfl
  case false.true =>
    rw [toInt_eq_negSucc_of_msb (by simp [ha, hb]), BitVec.toInt_eq_toNat_of_msb ha,
      toInt_eq_negSucc_of_msb hb, BitVec.not_xor_right, BitVec.toNat_xor]
    rfl
  case true.false =>
    rw [toInt_eq_negSucc_of_msb (by simp [ha, hb]), toInt_eq_negSucc_of_msb ha,
      BitVec.toInt_eq_toNat_of_msb hb, BitVec.not_xor_left, BitVec.toNat_xor]
    rfl
  case true.true =>
    have hnot : a ^^^ b = ~~~a ^^^ ~~~b := by
      rw [← BitVec.not_xor_left, ← BitVec.not_xor_right, BitVec.not_not]
    rw [BitVec.toInt_eq_toNat_of_msb (by simp [ha, hb]), toInt_eq_negSucc_of_msb ha,
      toInt_eq_negSucc_of_msb hb, hnot, BitVec.toNat_xor]
    rfl

/-- A pattern whose sign bit is clear keeps the sign of what it is XORed with (R84). -/
theorem toInt_xorAlu_neg_iff {w : Nat} (a : BitVec w) {b : BitVec w} (h : b.msb = false) :
    (xorAlu a b).toInt < 0 ↔ a.toInt < 0 := by
  have hmsb : (xorAlu a b).msb = a.msb := by rw [xorAlu, BitVec.msb_xor, h, Bool.xor_false]
  rwa [BitVec.msb_eq_toInt, BitVec.msb_eq_toInt, decide_eq_decide] at hmsb

/-! ### Modulo 8 (R85) -/

theorem natCast_toNat_mod8 {w : Nat} (v : BitVec w) : ((mod8 v).toNat : Int) = v.toInt % 8 := by
  rw [mod8, BitVec.toNat_ofInt]
  change ((v.toInt % 8 % (8 : Int)).toNat : Int) = v.toInt % 8
  omega

/-- The low three bits are the value modulo 8, since 8 divides `2^w` (R85). -/
theorem mod8_eq_extractLsb' {w : Nat} (v : BitVec w) (h : 3 ≤ w) : mod8 v = v.extractLsb' 0 3 := by
  have hdvd : (8 : Int) ∣ ((2 ^ w : Nat) : Int) := by
    exact_mod_cast pow_dvd_pow 2 h
  have hmod : v.toInt % 8 = (v.toNat : Int) % 8 := by
    rw [BitVec.toInt_eq_toNat_bmod, ← Int.emod_emod_of_dvd _ hdvd, Int.bmod_emod,
      Int.emod_emod_of_dvd _ hdvd]
  refine BitVec.eq_of_toNat_eq ?_
  rw [BitVec.extractLsb'_toNat, Nat.shiftRight_zero]
  zify
  rw [natCast_toNat_mod8, hmod]
  rfl

/-- The result depends on the operand's value alone (R90). -/
theorem mod8_eq_of_toInt_eq {w v : Nat} {a : BitVec w} {b : BitVec v} (h : a.toInt = b.toInt) :
    mod8 a = mod8 b := by
  rw [mod8, h, ← mod8]

end Sys2Proof.Machine
end

section
/-!
The operand bus, the result bus and the next-ip mux: each row of the control table answers what the
meaning of its instruction does (R80 to R82, R88, R89).
-/

namespace Sys2Proof.Machine

variable {P : Config.Params}

/-! ### Digits as register values (R80, R81) -/

theorem three_lt_xlen (P : Config.Params) : 3 < P.xlen := P.xlen_ge

theorem toNat_lit (P : Config.Params) (o : Digit) : (lit P o).toNat = o.toNat :=
  BitVec.toNat_setWidth_of_le (three_lt_xlen P).le

/-- A literal has no bit above bit 2. -/
theorem getLsbD_lit (P : Config.Params) (o : Digit) {i : Nat} (h : 3 ≤ i) :
    (lit P o).getLsbD i = false := by
  rw [lit, BitVec.getLsbD_setWidth, BitVec.getLsbD_of_ge o i h, Bool.and_false]

/-- A literal is not negative, since XLEN is above 3 (R81, log 1). -/
theorem msb_lit (P : Config.Params) (o : Digit) : (lit P o).msb = false := by
  rw [BitVec.msb_eq_getLsbD_last, getLsbD_lit P o (Nat.le_sub_one_of_lt (three_lt_xlen P))]

theorem toInt_lit (P : Config.Params) (o : Digit) : (lit P o).toInt = o.toNat := by
  rw [BitVec.toInt_eq_toNat_of_msb (msb_lit P o), toNat_lit]

/-- The combo mux gives 0 to 3 as literals (R80). -/
theorem combo_of_le_three {o : Digit} (r : Regs P) (h : o.toNat ≤ 3) :
    combo o r = .ok (lit P o) := by
  cases hc : combo o r with
  | ok k =>
    rcases combo_ok_cases hc with ⟨-, rfl⟩ | ⟨rfl, -⟩ | ⟨rfl, -⟩ | ⟨rfl, -⟩
    · rfl
    all_goals simp at h
  | error c =>
    obtain ⟨rfl, -⟩ := (combo_error_iff o r c).1 hc
    simp at h

/-- A digit that was zero-extended to a register value is what its low three bits hold (R103). -/
theorem setWidth_zextDigit (P : Config.Params) (d : Digit) : (zextDigit P d).setWidth 3 = d := by
  rw [zextDigit, BitVec.setWidth_setWidth_of_le d (three_lt_xlen P).le, BitVec.setWidth_eq]

/-! ### The rows of the control table (R89) -/

/-- Only JNZ selects the literal ip (R88, R89). -/
theorem ipSelect_controlSignals (opc : Digit) :
    (controlSignals opc).ipSelect = if opc = 3 then .litIfNz else .inc := by
  revert opc
  decide

/-- The rows of ADV, BDV and CDV drive the quotient. -/
theorem resultBus_div2k (d : Option Reg) (e : Bool) (sel : IpSelect) (o : Digit) (r : Regs P) :
    resultBus ⟨.combo, .div2k, .reg .a, .operand, d, e, sel⟩ o r = quotient o r := by
  rw [resultBus, quotient, operandBus]
  cases combo o r <;> rfl

/-- The rows of BST and OUT drive the digit, zero-extended. -/
theorem resultBus_mod8 (d : Option Reg) (e : Bool) (sel : IpSelect) (o : Digit) (r : Regs P) :
    resultBus ⟨.combo, .mod8, .operand, .unused, d, e, sel⟩ o r =
      (comboDigit o r).map (zextDigit P) := by
  rw [resultBus, comboDigit, operandBus]
  cases combo o r <;> rfl

/-- Finishing with a mapped result is finishing with the mapped effect. -/
theorem complete_map {α β : Type} (r : Except Cause α) (f : α → β) (b : Block P)
    (effect : β → Block P) : complete (r.map f) b effect = complete r b (effect ∘ f) := by
  cases r <;> rfl

/-- BST and OUT finish with their digit as the effect takes it, zero-extended. -/
theorem complete_resultBus_mod8 (d : Option Reg) (e : Bool) (sel : IpSelect) (o : Digit)
    (b : Block P) (effect : Word P → Block P) :
    complete (resultBus ⟨.combo, .mod8, .operand, .unused, d, e, sel⟩ o b.regs) b effect =
      complete (comboDigit o b.regs) b (effect ∘ zextDigit P) := by
  rw [resultBus_mod8, complete_map]

/-- The commit of OUT's row emits the digit that was zero-extended onto the result bus. -/
theorem commit_out (o d : Digit) (b : Block P) :
    commit (controlSignals 5) o (zextDigit P d) b = (b.emit d).advance := by
  have hd := setWidth_zextDigit P d
  simp [commit, controlSignals, nextIp, Block.emit, Block.advance, Block.setIp, ipInc, hd]

end Sys2Proof.Machine
end

section
/-! The obligations about the datapath (R80 to R91). -/

namespace Sys2Proof.Machine

/-- Settles O9: the quotient fits the register, so its pattern has exactly its value; only a
register drives a negative exponent. -/
theorem divideExact : Obligations.DivideExact := by
  unfold Obligations.DivideExact
  refine ⟨fun w a k => ⟨tdiv_of_neg a, fun hk => ?quotient⟩, fun P o r k hc hneg => ?exponent⟩
  case quotient =>
    obtain ⟨v, hok, hv⟩ := tdiv_exact a hk
    refine ⟨v, hok, hv, hv.trans (tdiv_two_pow_eq_sign_mul _ _),
      hv ▸ Int.natAbs_tdiv_le_natAbs _ _, ?zero, ?large, ?smallest⟩
    case zero =>
      rintro rfl
      exact BitVec.eq_of_toInt_eq (by simpa using hv)
    case large =>
      intro hw
      refine BitVec.eq_of_toInt_eq ?_
      rw [hv, tdiv_two_pow_of_width_le a (by omega), BitVec.ofNat_eq_ofNat, BitVec.toInt_zero]
    case smallest =>
      intro hk' ha hw
      have hexp : k.toNat = w - 1 := by omega
      rw [hv, ha, hexp, Int.neg_tdiv, Int.tdiv_self (by positivity)]
  case exponent =>
    rcases combo_ok_cases hc with ⟨-, rfl⟩ | hreg
    · rw [toInt_lit] at hneg
      omega
    · exact hreg

/-- Settles O10: the biased sum is in range, and its floor is the quotient that truncates. -/
theorem divideShiftForm : Obligations.DivideShiftForm := by
  unfold Obligations.DivideShiftForm
  refine ⟨fun w a k => ⟨fun hk => ⟨tdiv_eq_tdivShift a hk, toInt_add_bias a hk,
    tdiv_ne_sshiftRight⟩, fun hk => ?_⟩, rfl, rfl⟩
  rw [tdiv_natCast_eq_ok_iff, tdiv_two_pow_of_width_le a hk, BitVec.ofNat_eq_ofNat,
    BitVec.toInt_zero]

/-- Settles O12: the remainder is of the value, and 8 divides the modulus of the pattern. -/
theorem mod8Euclid : Obligations.Mod8Euclid := by
  unfold Obligations.Mod8Euclid
  refine ⟨fun w v => ⟨?_, mod8_eq_extractLsb' v⟩, rfl, rfl, rfl, rfl⟩
  rw [natCast_toNat_mod8, Int.emod_def, Int.fdiv_eq_ediv_of_nonneg _ (by decide)]

/-- Settles O13: sign extension keeps the value, and each result is determined by the values. -/
theorem resultsWidthIndependent : Obligations.ResultsWidthIndependent := by
  unfold Obligations.ResultsWidthIndependent
  intro w v hwv a b k
  have ha : (a.signExtend v).toInt = a.toInt := BitVec.toInt_signExtend_of_le hwv
  refine ⟨?_, BitVec.signExtend_xor.symm, mod8_eq_of_toInt_eq ha, toInt_xorAlu a b⟩
  rcases lt_or_ge k 0 with hk | hk
  · rw [tdiv_of_neg _ hk, tdiv_of_neg _ hk]
    rfl
  · obtain ⟨q, hok, hq⟩ := tdiv_exact a hk
    rw [hok, Except.map, tdiv_eq_ok_iff _ _ hk, ha, ← hq, BitVec.toInt_signExtend_of_le hwv]

/-- Settles O15: by the rows of the control table. The result bus carries the quotient (ADV, BDV,
CDV) or the digit (BST, OUT), or the fault instead; the rows of BXL, JNZ and BXC raise none. -/
theorem datapathRefines : Obligations.DatapathRefines := by
  unfold Obligations.DatapathRefines
  intro w s
  unfold datapath decode
  generalize opcOf w = opc, opdOf w = o
  match opc with
  | 0 | 6 | 7 => exact congrArg (complete · s.block _) (resultBus_div2k ..)
  | 1 | 3 | 4 => rfl
  | 2 => exact complete_resultBus_mod8 ..
  | 5 =>
    have hcommit := funext fun d => commit_out o d s.block
    exact (complete_resultBus_mod8 ..).trans (congrArg (complete _ s.block) hcommit)

/-- Settles O8: a literal keeps its value because XLEN holds it as a value that is not negative. -/
theorem comboMux : Obligations.ComboMux := by
  unfold Obligations.ComboMux
  exact fun P r =>
    ⟨fun o ho => ⟨lit P o, combo_of_le_three r ho, toInt_lit P o⟩, rfl, rfl, rfl, rfl⟩

/-- Settles O11: a literal has no bit above bit 2, the sign bit included. -/
theorem xorBits : Obligations.XorBits := by
  unfold Obligations.XorBits
  refine ⟨fun w a b i => BitVec.getLsbD_xor, fun P b o =>
    ⟨fun i hi => ?_, toInt_xorAlu_neg_iff b (msb_lit P o)⟩⟩
  rw [xorAlu, BitVec.getLsbD_xor, getLsbD_lit P o hi, Bool.xor_false]

/-- Settles O14: only opcode 3 selects JNZ's ip, which tests A. -/
theorem nextIpMux : Obligations.NextIpMux := by
  unfold Obligations.NextIpMux
  refine fun P opc opd b => ⟨?_, digit_index_toNat P opd⟩
  rw [ipSelect_controlSignals]
  by_cases hopc : opc = 3
  · simp [hopc, nextIp, jumpIp, nz, ipInc]
  · rw [if_neg hopc, if_neg fun h => hopc h.1, nextIp, ipInc]

end Sys2Proof.Machine
end

section
/-!
What each instruction does in a block, one lemma per effect: the division into a register (R101, R107,
R108), the XOR into B (R102, R105), the digit of a combo value (R103, R106) and the jump (R104).
-/

namespace Sys2Proof.Machine

variable {P : Config.Params}

/-! ### Division by a power of two, into a register (R83, R101, R107, R108) -/

section Divide

variable (d : Reg) {o : Digit} {b : Block P} {k : Word P}

/-- A division whose exponent is not negative writes the exact quotient of A. -/
theorem divideInto_of_quotient {v : Word P} (hk : combo o b.regs = .ok k) (hk0 : 0 ≤ k.toInt)
    (hv : v.toInt = b.regs.a.toInt.tdiv (2 ^ k.toInt.toNat)) :
    divideInto d o b.state = .next (b.writeReg d v).advance.state := by
  have hq : quotient o b.regs = .ok v := by
    rw [quotient, hk]
    exact (tdiv_eq_ok_iff _ _ hk0).2 hv
  rw [divideInto, hq]
  rfl

theorem exists_divideInto_quotient (hk : combo o b.regs = .ok k) (hk0 : 0 ≤ k.toInt) :
    ∃ v : Word P, v.toInt = b.regs.a.toInt.tdiv (2 ^ k.toInt.toNat) ∧
      divideInto d o b.state = .next (b.writeReg d v).advance.state :=
  ⟨_, toInt_ofInt_tdiv _ _, divideInto_of_quotient d hk hk0 (toInt_ofInt_tdiv _ _)⟩

/-- The same when the value `x` of the quotient and the exponent `n` are known. -/
theorem exists_divideInto_value (hk : combo o b.regs = .ok k) {n : Nat} (hn : k.toInt = n) {x : Int}
    (hx : b.regs.a.toInt.tdiv (2 ^ n) = x) :
    ∃ v : Word P, v.toInt = x ∧
      divideInto d o b.state = .next (b.writeReg d v).advance.state := by
  obtain ⟨v, hv, hexec⟩ := exists_divideInto_quotient d hk (hn ▸ Int.natCast_nonneg n)
  rw [hn, Int.toNat_natCast, hx] at hv
  exact ⟨v, hv, hexec⟩

/-- A division by `2^0` copies A into the destination. -/
theorem divideInto_zero (b : Block P) :
    divideInto d 0 b.state = .next (b.writeReg d b.regs.a).advance.state := by
  have hk : (lit P 0).toInt = 0 := toInt_lit P 0
  exact divideInto_of_quotient d rfl hk.ge (by rw [hk]; simp)

/-- A division whose exponent is XLEN or more writes 0. -/
theorem divideInto_of_width_le (hk : combo o b.regs = .ok k) (hw : (P.xlen : Int) ≤ k.toInt) :
    divideInto d o b.state = .next (b.writeReg d 0).advance.state := by
  refine divideInto_of_quotient d hk (by omega) ?_
  rw [tdiv_two_pow_of_width_le _ (by omega), BitVec.ofNat_eq_ofNat, BitVec.toInt_zero]

/-- A division whose exponent is an A that is not negative writes 0, since `n < 2^n`. -/
theorem divideInto_four_of_nonneg (ha : 0 ≤ b.regs.a.toInt) :
    divideInto d 4 b.state = .next (b.writeReg d 0).advance.state := by
  have hlt : b.regs.a.toInt < 2 ^ b.regs.a.toInt.toNat := by
    have hnat : b.regs.a.toInt.toNat < 2 ^ b.regs.a.toInt.toNat := Nat.lt_two_pow_self
    zify at hnat
    omega
  refine divideInto_of_quotient d rfl ha ?_
  rw [Int.tdiv_eq_zero_of_lt ha hlt, BitVec.ofNat_eq_ofNat, BitVec.toInt_zero]

/-- A division whose exponent is negative takes NEG_EXPONENT (R83, R122). -/
theorem divideInto_of_neg (hk : combo o b.regs = .ok k) (hneg : k.toInt < 0) :
    divideInto d o b.state = .next (b.raise .negExponent).state := by
  have hq : quotient o b.regs = .error .negExponent := by
    rw [quotient, hk]
    exact tdiv_of_neg _ hneg
  rw [divideInto, hq]
  rfl

/-- The same by the register that the operand selects. -/
theorem divideInto_of_neg_register (ho : (o = 4 ∧ b.regs.a.toInt < 0) ∨
      (o = 5 ∧ b.regs.b.toInt < 0) ∨ (o = 6 ∧ b.regs.c.toInt < 0)) :
    divideInto d o b.state = .next (b.raise .negExponent).state := by
  rcases ho with ⟨rfl, hneg⟩ | ⟨rfl, hneg⟩ | ⟨rfl, hneg⟩
  all_goals exact divideInto_of_neg d rfl hneg

/-- A quotient by `2^n` with `n` at least 1 is strictly smaller than a dividend other than 0 (R154). -/
theorem natAbs_tdiv_two_pow_lt {a : Int} {n : Nat} (ha : a ≠ 0) (hn : n ≠ 0) :
    (a.tdiv (2 ^ n)).natAbs < a.natAbs := by
  rw [Int.natAbs_tdiv, Int.natAbs_pow]
  exact Nat.div_lt_self (Int.natAbs_pos.2 ha) (Nat.one_lt_two_pow hn)

end Divide

/-! ### XOR into B (R84, R102, R105) -/

/-- XOR into B when the pattern of the result is known. -/
theorem xorIntoB_of_xor_eq {b : Block P} {u v : Word P} (hu : b.regs.b ^^^ v = u) :
    xorIntoB b.state v = .next (b.writeReg .b u).advance.state := by
  rw [← hu]
  rfl

/-- XOR into B when the value `x` of the result is known. -/
theorem exists_xorIntoB_value {b : Block P} {v : Word P} {x : Int}
    (hx : Int.xor b.regs.b.toInt v.toInt = x) :
    ∃ u : Word P, u.toInt = x ∧
      xorIntoB b.state v = .next (b.writeReg .b u).advance.state :=
  ⟨_, (toInt_xorAlu _ _).trans hx, rfl⟩

/-- A literal has no bit above bit 2, so XOR with it changes only bits 2 to 0. -/
theorem getLsbD_xor_lit (v : Word P) (o : Digit) {i : Nat} (hi : 3 ≤ i) :
    (v ^^^ lit P o).getLsbD i = v.getLsbD i := by
  rw [BitVec.getLsbD_xor, getLsbD_lit P o hi, Bool.xor_false]

/-- XOR is negative exactly when one of the two is (R84). -/
theorem toInt_xor_neg_iff {w : Nat} (x y : BitVec w) :
    (x ^^^ y).toInt < 0 ↔ (x.toInt < 0 ∧ 0 ≤ y.toInt) ∨ (0 ≤ x.toInt ∧ y.toInt < 0) := by
  have hmsb : (x ^^^ y).msb = (x.msb ^^ y.msb) := BitVec.msb_xor
  simp only [BitVec.msb_eq_toInt] at hmsb
  grind

/-- BXL is its own inverse on the registers (R102). -/
theorem execBxl_twice_regs {o : Digit} {b t u : Block P} (ht : execBxl o b.state = .next t.state)
    (hu : execBxl o t.state = .next u.state) : u.regs = b.regs := by
  obtain rfl := next_state_inj ht
  obtain rfl := next_state_inj hu
  have hb : xorAlu (xorAlu b.regs.b (lit P o)) (lit P o) = b.regs.b := by
    rw [xorAlu, xorAlu, BitVec.xor_assoc, BitVec.xor_self, BitVec.xor_zero]
  simp [hb]

/-! ### The combo value modulo 8 (R85, R103, R106) -/

theorem toInt_zextDigit_mod8 (k : Word P) : (zextDigit P (mod8 k)).toInt = k.toInt % 8 :=
  (toInt_lit P _).trans (natCast_toNat_mod8 k)

theorem mod8_eq_of_emod {w : Nat} {k : BitVec w} {d : Digit} (h : k.toInt % 8 = d.toNat) :
    mod8 k = d := by
  have hnat := (natCast_toNat_mod8 k).trans h
  exact BitVec.eq_of_toNat_eq (by exact_mod_cast hnat)

theorem mod8_lit (o : Digit) : mod8 (lit P o) = o := by
  have hlt := o.isLt
  exact mod8_eq_of_emod (by rw [toInt_lit]; omega)

section Modulo

variable {o : Digit} {b : Block P} {k : Word P}

theorem comboDigit_of_combo (hk : combo o b.regs = .ok k) : comboDigit o b.regs = .ok (mod8 k) := by
  rw [comboDigit, hk]

theorem execBst_of_combo (hk : combo o b.regs = .ok k) :
    execBst o b.state = .next (b.writeReg .b (zextDigit P (mod8 k))).advance.state := by
  rw [execBst, comboDigit_of_combo hk]
  rfl

/-- BST when the value `x` of the remainder is known. -/
theorem exists_execBst_value (hk : combo o b.regs = .ok k) {x : Int} (hx : k.toInt % 8 = x) :
    ∃ v : Word P, v.toInt = x ∧ execBst o b.state = .next (b.writeReg .b v).advance.state :=
  ⟨_, (toInt_zextDigit_mod8 k).trans hx, execBst_of_combo hk⟩

theorem execOut_of_combo (hk : combo o b.regs = .ok k) :
    execOut o b.state = .next (b.emit (mod8 k)).advance.state := by
  rw [execOut, comboDigit_of_combo hk]
  rfl

/-- OUT when the digit that has the remainder's value is known. -/
theorem execOut_of_emod (hk : combo o b.regs = .ok k) {d : Digit} (hd : k.toInt % 8 = d.toNat) :
    execOut o b.state = .next (b.emit d).advance.state := by
  rw [execOut_of_combo hk, mod8_eq_of_emod hd]

end Modulo

/-! ### The jump (R87, R88, R104) -/

theorem jumpIp_of_ne_zero {b : Block P} (o : Digit) (ha : b.regs.a ≠ 0) :
    jumpIp o b = o.setWidth P.ipw :=
  if_pos (bne_iff_ne.2 ha)

theorem jumpIp_of_eq_zero {b : Block P} (o : Digit) (ha : b.regs.a = 0) : jumpIp o b = ipInc b := by
  rw [jumpIp, nz, ha, bne_self_eq_false, if_neg Bool.false_ne_true]

theorem execJnz_of_ne_zero {b : Block P} (o : Digit) (ha : b.regs.a ≠ 0) :
    execJnz o b.state = .next (b.setIp (o.setWidth P.ipw)).state := by
  rw [execJnz, jumpIp_of_ne_zero o ha]

theorem execJnz_of_eq_zero {b : Block P} (o : Digit) (ha : b.regs.a = 0) :
    execJnz o b.state = .next b.advance.state := by
  rw [execJnz, jumpIp_of_eq_zero o ha]
  rfl

/-- A jump to the pair it stands at changes nothing when A is not 0. -/
theorem execJnz_self {b : Block P} {o : Digit} (ha : b.regs.a ≠ 0) (ho : o.toNat = b.ip.toNat) :
    execJnz o b.state = .next b.state := by
  have hip : o.setWidth P.ipw = b.ip :=
    BitVec.eq_of_toNat_eq ((digit_index_toNat P o).trans ho)
  rw [execJnz_of_ne_zero o ha, hip]
  rfl

end Sys2Proof.Machine
end

section
/-!
The step of a known word, a step that goes nowhere, and runs with A = 0, which every instruction keeps
and which makes the ip rise until the run ends (R100, R154).
-/

namespace Sys2Proof.Machine

variable {P : Config.Params}

/-! ### The step of a word at the ip (R100) -/

/-- A step below PLEN executes the instruction whose word is at the ip. -/
theorem step_of_encode {b : Block P} {i : Instr} (hr : b.status = .run)
    (hp : b.ip.toNat < b.plen.toNat) (hm : b.ip.toNat < P.pmax)
    (hw : Memory.read b.pmem b.ip.toNat = encode i) : step b.state = exec i b.state := by
  rw [step_exec hr hp hm, hw, decode_encode]

/-- The operand of the decoded instruction is the word's operand field. -/
theorem opd_decode (w : InstrWord) : (decode w).opd = opdOf w := by
  rw [← opdOf_encode, encode_decode]

/-- A run whose step goes nowhere goes nowhere. -/
theorem run_of_step_self {s : State} (h : step s = .next s) (n : Nat) :
    Host.Core.run Sys2Proof.core n s = .next s := by
  induction n with
  | zero => exact run_zero s
  | succ n ih => rw [run_succ_next n h, ih]

/-! ### A word placed at the ip (log 22) -/

@[simp] theorem Block.placeWord_status (b : Block P) (w : InstrWord) :
    (b.placeWord w).status = .run := rfl

/-- The ip of a placed word names a cell. -/
theorem Block.placeWord_ip_lt (b : Block P) (w : InstrWord) : (b.placeWord w).ip.toNat < P.pmax := by
  change (if b.ip.toNat < P.pmax then b.ip else 0).toNat < P.pmax
  split
  case isTrue h => exact h
  case isFalse => exact P.pmax_pos

/-- A placed word is inside the program. -/
theorem Block.placeWord_ip_lt_plen (b : Block P) (w : InstrWord) :
    (b.placeWord w).ip.toNat < (b.placeWord w).plen.toNat := by
  have hinc := ipInc_toNat (b.placeWord_ip_lt w)
  have hplen : (b.placeWord w).plen = if (b.placeWord w).ip.toNat < b.plen.toNat then b.plen
      else ipInc (b.placeWord w) := rfl
  rw [hplen]
  split
  case isTrue h => exact h
  case isFalse => omega

@[simp] theorem Block.read_placeWord_ip (b : Block P) (w : InstrWord) :
    Memory.read (b.placeWord w).pmem (b.placeWord w).ip.toNat = w :=
  (Memory.read_write ..).trans (if_pos rfl)

/-- A number of 6 bits or more holds a whole word. -/
theorem toNat_mod_of_six_le (w : InstrWord) {nbits : Nat} (h : 6 ≤ nbits) :
    w.toNat % 2 ^ nbits = w.toNat :=
  Nat.mod_eq_of_lt (w.isLt.trans_le (Nat.pow_le_pow_right Nat.two_pos h))

/-! ### A = 0 (R154) -/

section ZeroA

variable {i : Instr} {b t : Block P}

/-- A quotient of 0 is 0. -/
theorem eq_zero_of_quotient {o : Digit} {r : Regs P} {v : Word P} (ha : r.a = 0)
    (hq : quotient o r = .ok v) : v = 0 := by
  obtain ⟨-, k, -, hk0, hdiv⟩ := quotient_ok hq
  have hv := (tdiv_eq_ok_iff _ _ hk0).1 hdiv
  exact BitVec.eq_of_toInt_eq (by simpa [ha] using hv)

/-- No instruction makes A other than 0: ADV alone writes it, and writes a quotient of it. -/
theorem exec_keeps_zero_a (ha : b.regs.a = 0) (h : exec i b.state = .next t.state) :
    t.regs.a = 0 := by
  by_cases hd : destOf i = some .a
  · rw [eq_adv_of_destOf hd] at h
    rcases complete_cases h with ⟨v, hv, ht⟩ | ⟨c, -, ht⟩ <;> obtain rfl := Block.state_inj ht
    · exact eq_zero_of_quotient ha hv
    · exact ha
  · exact (exec_keeps_reg h hd).trans ha

/-- With A = 0 an instruction that does not fault goes on to the next pair: JNZ falls through. -/
theorem exec_advances_of_zero_a (ha : b.regs.a = 0) (h : exec i b.state = .next t.state) :
    (t.status = b.status ∧ t.plen = b.plen ∧ t.ip = ipInc b) ∨ t.status = .fault := by
  rcases exec_cases h with ⟨_, d, v, -, -, ht⟩ | ⟨_, v, -, ht⟩ | ⟨o, -, ht⟩ | ⟨_, d, -, -, ht⟩ |
    ⟨_, c, -, ht⟩ <;> obtain rfl := Block.state_inj ht
  · exact .inl ⟨rfl, rfl, rfl⟩
  · exact .inl ⟨rfl, rfl, rfl⟩
  · exact .inl ⟨rfl, rfl, jumpIp_of_eq_zero o ha⟩
  · exact .inl ⟨rfl, rfl, rfl⟩
  · exact .inr rfl

/-- A running step with A = 0 below PLEN keeps A = 0, and takes one pair off the rest of the program or
ends the run in FAULT. -/
theorem step_of_zero_a (hinv : b.Inv) (hr : b.status = .run) (ha : b.regs.a = 0)
    (hlt : b.ip.toNat < b.plen.toNat) :
    ∃ t : Block P, step b.state = .next t.state ∧ t.regs.a = 0 ∧
      ((t.status = .run ∧ t.plen = b.plen ∧ t.ip.toNat = b.ip.toNat + 1) ∨ t.status = .fault) := by
  have hp : b.ip.toNat < P.pmax := hlt.trans_le hinv.plenLe
  obtain ⟨t, ht⟩ := exec_next (decode (Memory.read b.pmem b.ip.toNat)) b
  refine ⟨t, (step_exec hr hlt hp).trans ht, exec_keeps_zero_a ha ht, ?_⟩
  exact (exec_advances_of_zero_a ha ht).imp_left fun ⟨hst, hplen, hip⟩ =>
    ⟨hst.trans hr, hplen, hip ▸ ipInc_toNat hp⟩

/-- A run with A = 0 ends within the `m` pairs that remain and one step more, by induction on `m`. -/
theorem run_of_zero_a_ends {m : Nat} (hinv : b.Inv) (hr : b.status = .run) (ha : b.regs.a = 0)
    (hm : b.plen.toNat - b.ip.toNat = m) :
    ∃ (n : Nat) (t : Block P), n ≤ m + 1 ∧
      Host.Core.run Sys2Proof.core n b.state = .next t.state ∧ t.ended ∧ t.regs.a = 0 ∧
      (t.status = .halt → t.plen.toNat ≤ t.ip.toNat) := by
  induction m generalizing b with
  | zero =>
    have hle : b.plen.toNat ≤ b.ip.toNat := Nat.le_of_sub_eq_zero hm
    exact ⟨1, b.halt, le_rfl, run_succ_next 0 (step_halt hr hle), .inl rfl, ha, fun _ => hle⟩
  | succ m ih =>
    obtain ⟨u, hs, hua, ⟨hur, hplen, hip⟩ | hfault⟩ := step_of_zero_a hinv hr ha (by omega)
    · obtain ⟨n, t, hn, hrun, hend⟩ := ih (step_keeps_inv hinv hs) hur hua (by rw [hplen]; omega)
      exact ⟨n + 1, t, by omega, (run_succ_next n hs).trans hrun, hend⟩
    · exact ⟨1, u, by omega, run_succ_next 0 hs, .inr hfault, hua, fun hh => by simp [hfault] at hh⟩

end ZeroA

end Sys2Proof.Machine
end

section
/-! The obligations about the instruction cycle and the 8 instructions (R100 to R108, R154). -/

namespace Sys2Proof.Machine

/-- Settles O44: with A = 0 each step that does not end the run takes one pair off the rest of the
program. -/
theorem zeroAEndsRun : Obligations.ZeroAEndsRun := by
  unfold Obligations.ZeroAEndsRun
  exact fun P b hinv hr ha => run_of_zero_a_ends hinv hr ha rfl

/-- Settles O17: an instruction completes and keeps the status registers, or takes its fault and keeps
all else. -/
theorem instructionCycle : Obligations.InstructionCycle := by
  unfold Obligations.InstructionCycle
  refine ⟨fun s t hne hs => hne (step_cases (b := s.block) hs).1, fun P b hr hp => step_halt hr hp,
    fun P b w hr hlt hle hw => ⟨?_, rfl, opd_decode w⟩, fun P i b hr => ?_⟩
  · rw [step_exec hr hlt (hlt.trans_le hle), hw]
  · obtain ⟨t, ht⟩ := exec_next i b
    refine ⟨t, ht, ?_⟩
    rcases exec_keepsStatus_or_tookFault ht with ⟨hst, hcodes⟩ | ⟨_, hst, -, -, hkept⟩
    · exact .inl ⟨hst.trans hr, hcodes⟩
    · exact .inr ⟨hst, hkept⟩

/-- Settles O19: the quotient is exact for every exponent, and its value alone gives the corner cases. -/
theorem advRule : Obligations.AdvRule := by
  unfold Obligations.AdvRule
  exact ⟨fun d => decode_encode (.adv d), fun P b =>
    ⟨fun o k => exists_divideInto_quotient .a, rfl, fun o => divideInto_of_neg_register .a,
      divideInto_zero .a b, divideInto_four_of_nonneg .a,
      fun ha => exists_divideInto_value .a rfl (toInt_lit P 1) (by rw [ha]; rfl),
      fun o k => divideInto_of_width_le .a,
      fun ha => exists_divideInto_value .a rfl (toInt_lit P 1) (by rw [ha]; rfl)⟩⟩

/-- Settles O20: a literal has no bit above bit 2, so it changes neither the rest of B nor its sign. -/
theorem bxlRule : Obligations.BxlRule := by
  unfold Obligations.BxlRule
  refine ⟨fun d => decode_encode (.bxl d), fun P b =>
    ⟨fun o => ⟨_, rfl, rfl, toInt_lit P o, fun i => getLsbD_xor_lit b.regs.b o,
        toInt_xorAlu_neg_iff b.regs.b (msb_lit P o)⟩,
      ?literalZero, fun hb => ?minusOne, fun o t u => execBxl_twice_regs, fun hb => ?example29⟩⟩
  case literalZero => exact xorIntoB_of_xor_eq (u := b.regs.b) (by simp [lit])
  case minusOne => exact exists_xorIntoB_value (by rw [hb, toInt_lit]; rfl)
  case example29 => exact exists_xorIntoB_value (by rw [hb, toInt_lit]; rfl)

/-- Settles O21: the remainder is a digit, which XLEN holds as a value that is not negative. -/
theorem bstRule : Obligations.BstRule := by
  unfold Obligations.BstRule
  refine ⟨fun d => decode_encode (.bst d), fun P b =>
    ⟨fun o k hk => ?digit, rfl, fun o ho => ?literal, exists_execBst_value rfl rfl,
      fun hc => exists_execBst_value rfl (by rw [hc]; rfl),
      fun _ => exists_execBst_value rfl (by rw [toInt_lit]; rfl),
      fun hc => exists_execBst_value rfl (by rw [hc]; rfl)⟩⟩
  case digit =>
    obtain ⟨v, hv, hexec⟩ := exists_execBst_value hk rfl
    exact ⟨v, hv, by omega, by omega, hexec⟩
  case literal =>
    have hexec := execBst_of_combo (combo_of_le_three b.regs ho)
    rwa [mod8_lit] at hexec

/-- Settles O22: a taken jump sets the ip to the operand, whose value IPW bits hold; at or past PLEN a
halt step follows, and at the jump's own pair every later step is the same. -/
theorem jnzRule : Obligations.JnzRule := by
  unfold Obligations.JnzRule
  refine ⟨fun d => decode_encode (.jnz d), fun P b o =>
    ⟨digit_index_toNat P o, execJnz_of_ne_zero o, execJnz_of_eq_zero o, fun hneg => ?negative,
      fun hr ha hle => ⟨_, execJnz_of_ne_zero o ha, ?pastEnd⟩,
      fun hr ha hlt hle ho hw => run_of_step_self ?selfJump⟩⟩
  case negative =>
    refine execJnz_of_ne_zero o fun ha => ?_
    simp [ha] at hneg
  case pastEnd => exact step_halt hr (hle.trans (digit_index_toNat P o).ge)
  case selfJump => exact (step_of_encode hr hlt (hlt.trans_le hle) hw).trans (execJnz_self ha ho)

/-- Settles O23: XOR of the two registers, whatever the operand. -/
theorem bxcRule : Obligations.BxcRule := by
  unfold Obligations.BxcRule
  refine ⟨fun d => decode_encode (.bxc d), fun P b o =>
    ⟨⟨_, rfl, rfl, toInt_xor_neg_iff _ _⟩, fun hbc => ?equal, fun hc => ?zero,
      fun hb hc => exists_xorIntoB_value (by rw [hb, hc]; rfl),
      fun hb hc => exists_xorIntoB_value (by rw [hb, hc]; rfl)⟩⟩
  case equal => exact xorIntoB_of_xor_eq (u := 0) (by simp [hbc])
  case zero => exact xorIntoB_of_xor_eq (u := b.regs.b) (by simp [hc])

/-- Settles O24: the digit that is appended has the value of the remainder. -/
theorem outRule : Obligations.OutRule := by
  unfold Obligations.OutRule
  refine ⟨fun d => decode_encode (.out d), fun P b =>
    ⟨fun o k hk => ⟨mod8 k, natCast_toNat_mod8 k, execOut_of_combo hk⟩, rfl, fun o ho => ?literal,
      fun hb => execOut_of_emod rfl (by rw [hb]; rfl),
      fun ha => execOut_of_emod rfl (by rw [ha]; rfl)⟩⟩
  case literal =>
    have hexec := execOut_of_combo (combo_of_le_three b.regs ho)
    rwa [mod8_lit] at hexec

/-- Settles O25: ADV's quotient with B as the destination; the exponent is read before the write. -/
theorem bdvRule : Obligations.BdvRule := by
  unfold Obligations.BdvRule
  exact ⟨fun d => decode_encode (.bdv d), fun P b =>
    ⟨fun o k => exists_divideInto_quotient .b, rfl, fun o => divideInto_of_neg_register .b,
      divideInto_zero .b b, exists_divideInto_quotient .b rfl,
      fun o k => divideInto_of_width_le .b,
      fun ha => exists_divideInto_value .b rfl (toInt_lit P 3) (by rw [ha]; rfl)⟩⟩

/-- Settles O26: ADV's quotient with C as the destination; the exponent is read before the write. -/
theorem cdvRule : Obligations.CdvRule := by
  unfold Obligations.CdvRule
  exact ⟨fun d => decode_encode (.cdv d), fun P b =>
    ⟨fun o k => exists_divideInto_quotient .c, rfl, fun o => divideInto_of_neg_register .c,
      divideInto_zero .c b, exists_divideInto_quotient .c rfl,
      fun ha => exists_divideInto_value .c rfl (toInt_lit P 3) (by rw [ha]; rfl),
      fun ha hb => exists_divideInto_value .c rfl hb (by rw [ha]; rfl)⟩⟩

/-- Settles O43: the magnitude of the quotient is that of A divided by `2^k`. -/
theorem advShrinksA : Obligations.AdvShrinksA := by
  unfold Obligations.AdvShrinksA
  intro P o b k hk hk0
  obtain ⟨v, hv, hexec⟩ := exists_divideInto_quotient .a hk hk0
  refine ⟨_, hexec, fun hzero => ?same, fun hone hne => ?smaller, fun ha => ?zero⟩
  case same => exact BitVec.eq_of_toInt_eq (by simpa [hzero] using hv)
  case smaller =>
    have ha : b.regs.a.toInt ≠ 0 := fun h => hne (BitVec.eq_of_toInt_eq (by simpa using h))
    exact hv ▸ natAbs_tdiv_two_pow_lt ha (by omega)
  case zero => exact BitVec.eq_of_toInt_eq (by simpa [ha] using hv)

/-- Settles O16: the decoder reads back the encoder's word; a placed word is at the ip, below PLEN. -/
theorem stepRunsDecoded : Obligations.StepRunsDecoded := by
  unfold Obligations.StepRunsDecoded
  refine ⟨fun P b i hr hlt hle hw => step_of_encode hr hlt (hlt.trans_le hle) hw,
    fun s i nbits hn => ?_⟩
  have hmod := toNat_mod_of_six_le (encode i) hn
  refine ⟨?decode, ?step⟩
  case decode => rw [decodeTableWord, hmod, decodeRaw_toNat, decode_encode]; rfl
  case step =>
    rw [State.withFetchWord, hmod, BitVec.ofNat_toNat, BitVec.setWidth_eq]
    exact step_of_encode rfl (Block.placeWord_ip_lt_plen _ _) (Block.placeWord_ip_lt _ _)
      (Block.read_placeWord_ip _ _)

end Sys2Proof.Machine
end

section
/-!
Faults: which instruction raises which cause, what taking a fault leaves, and how a fault is held and
left (R100, R120, R122, R123, R125, R131).
-/

namespace Sys2Proof.Machine

variable {P : Config.Params}

/-! ### Which instruction raises which cause (R120, R123) -/

/-- R120's table: the instructions that raise a cause, given the register snapshot they read. -/
def Raises (c : Cause) (i : Instr) (r : Regs P) : Prop :=
  match c with
  | .comboReserved => i ∈ [Instr.adv 7, .bst 7, .out 7, .bdv 7, .cdv 7]
  | .negExponent => i ∈ [Instr.adv i.opd, .bdv i.opd, .cdv i.opd] ∧
      ∃ k : Word P, combo i.opd r = .ok k ∧ k.toInt < 0

theorem Cause.code_injective : Function.Injective Cause.code := by
  intro c d h
  cases c <;> cases d
  case comboReserved.comboReserved | negExponent.negExponent => rfl
  all_goals cases h

/-- An operand with a combo value is not 7 (R82). -/
theorem opd_ne_seven_of_combo {o : Digit} {r : Regs P} {k : Word P} (h : combo o r = .ok k) :
    o ≠ 7 := by
  rintro rfl
  cases h

/-- The cause follows from the operand alone: 7 gives COMBO_RESERVED and nothing else does (R123). -/
theorem code_of_raises {c : Cause} {i : Instr} {r : Regs P} (h : Raises c i r) :
    c.code = if i.opd = 7 then .comboReserved else .negExponent := by
  cases c with
  | comboReserved =>
    have hopd : i.opd = 7 :=
      (by decide : ∀ j ∈ [Instr.adv 7, .bst 7, .out 7, .bdv 7, .cdv 7], j.opd = 7) i h
    rw [if_pos hopd]
    rfl
  | negExponent =>
    obtain ⟨-, k, hk, -⟩ := h
    rw [if_neg (opd_ne_seven_of_combo hk)]
    rfl

section Exec

variable {c : Cause} {i : Instr} {b t : Block P}

/-- An instruction of R120's table takes its fault (R122). -/
theorem exec_of_raises (h : Raises c i b.regs) : exec i b.state = .next (b.raise c).state := by
  cases c with
  | comboReserved =>
    simp only [Raises, List.mem_cons, List.not_mem_nil, or_false] at h
    rcases h with rfl | rfl | rfl | rfl | rfl <;> rfl
  | negExponent =>
    obtain ⟨hi, k, hk, hneg⟩ := h
    simp only [List.mem_cons, List.not_mem_nil, or_false] at hi
    rcases hi with hi | hi | hi <;> rw [hi]
    · exact divideInto_of_neg .a hk hneg
    · exact divideInto_of_neg .b hk hneg
    · exact divideInto_of_neg .c hk hneg

/-- A division without a quotient is in R120's table. -/
theorem raises_of_quotient_error {o : Digit} {r : Regs P} (hi : i = .adv o ∨ i = .bdv o ∨ i = .cdv o)
    (hq : quotient o r = .error c) : Raises c i r := by
  rcases quotient_error hq with ⟨rfl, rfl⟩ | ⟨-, rfl, hk⟩
  · rcases hi with rfl | rfl | rfl <;> simp [Raises]
  · rcases hi with rfl | rfl | rfl <;> exact ⟨by simp [Instr.opd], hk⟩

/-- BST and OUT without a digit are in R120's table. -/
theorem raises_of_comboDigit_error {o : Digit} {r : Regs P} (hi : i = .bst o ∨ i = .out o)
    (hd : comboDigit o r = .error c) : Raises c i r := by
  obtain ⟨rfl, rfl⟩ := comboDigit_error hd
  rcases hi with rfl | rfl <;> simp [Raises]

/-- An instruction completes, or it takes a fault that R120's table gives it. -/
theorem exec_completed_or_raises (h : exec i b.state = .next t.state) :
    Completed b t ∨ ∃ c, Raises c i b.regs ∧ t = b.raise c := by
  rcases exec_cases h with ⟨_, d, v, -, -, ht⟩ | ⟨_, v, -, ht⟩ | ⟨o, -, ht⟩ | ⟨_, d, -, -, ht⟩ |
    ⟨_, c, hc, ht⟩ <;> obtain rfl := Block.state_inj ht
  · exact .inl (completed_advance_writeReg b d v)
  · exact .inl (completed_advance_writeReg b .b v)
  · exact .inl (completed_jump b o)
  · exact .inl (completed_advance_emit b d)
  · rcases hc with ⟨hi, hq⟩ | ⟨hi, hd⟩
    · exact .inr ⟨c, raises_of_quotient_error hi hq, rfl⟩
    · exact .inr ⟨c, raises_of_comboDigit_error hi hd, rfl⟩

/-- A running block that an instruction leaves in FAULT has taken a fault of R120's table. -/
theorem exists_raises_of_fault (hr : b.status = .run) (h : exec i b.state = .next t.state)
    (ht : t.status = .fault) : ∃ c, Raises c i b.regs ∧ t = b.raise c := by
  rcases exec_completed_or_raises h with hc | hraise
  · obtain ⟨hst, -, -⟩ := hc.status
    rw [hst, hr] at ht
    cases ht
  · exact hraise

/-- What a running block reports is the cause that R120's table gives, and only that. -/
theorem fault_reported_iff_raises (hr : b.status = .run) (h : exec i b.state = .next t.state) :
    (t.status = .fault ∧ t.faultCode = c.code ∧ t.faultIp = b.ip) ↔ Raises c i b.regs := by
  constructor
  · rintro ⟨hst, hcode, -⟩
    obtain ⟨d, hd, rfl⟩ := exists_raises_of_fault hr h hst
    obtain rfl : d = c := Cause.code_injective hcode
    exact hd
  · intro hc
    obtain rfl := next_state_inj ((exec_of_raises hc).symm.trans h)
    exact ⟨rfl, rfl, rfl⟩

end Exec

/-! ### Outside RUN (R100, R125, R131) -/

/-- The core stops where it has no step. -/
theorem step_of_noStep {s : State} {r : Fault} (h : noStep s.block = some r) : step s = .fault r := by
  rw [step, h]

theorem step_of_idle {s : State} (h : s.block.status = .idle) : step s = .fault .idle :=
  step_of_noStep (by rw [noStep, h])

theorem step_of_halt {s : State} (h : s.block.status = .halt) : step s = .fault .halted :=
  step_of_noStep (by rw [noStep, h])

theorem step_of_fault {s : State} (h : s.block.status = .fault) : step s = .fault .faulted :=
  step_of_noStep (by rw [noStep, h])

/-- No core step leaves FAULT (R125). -/
theorem step_ne_next_of_fault {s : State} (h : s.block.status = .fault) (u : State) :
    step s ≠ .next u := by
  rw [step_of_fault h]
  nofun

/-- START of values that fit begins a run, outside RUN (R143). -/
theorem hostStart_of_fits {x y z : Int} {b : Block P} (hr : b.status ≠ .run)
    (hx : fitsXlen P x) (hy : fitsXlen P y) (hz : fitsXlen P z) :
    hostStart x y z b.state = .next (Block.state { b with
      regs := ⟨BitVec.ofInt _ x, BitVec.ofInt _ y, BitVec.ofInt _ z⟩
      ip := 0, outSeq := [], faultCode := .none, faultIp := 0, status := .run }) := by
  rw [hostStart, if_neg hr, if_pos ⟨hx, hy, hz⟩]

end Sys2Proof.Machine
end

section
/-! The obligations about the faults (R120 to R125) and about the core outside RUN (R131). -/

namespace Sys2Proof.Machine

/-- Settles O29: the fault that is recorded is the one of the table `Raises`, in both directions. -/
theorem faultsExactly : Obligations.FaultsExactly := by
  unfold Obligations.FaultsExactly
  refine ⟨rfl, rfl, rfl, fun f => by cases f <;> decide, fun P i b t hr h =>
    ⟨fault_reported_iff_raises (c := .comboReserved) hr h,
      fault_reported_iff_raises (c := .negExponent) hr h, fun ht => ?_⟩⟩
  obtain ⟨c, -, rfl⟩ := exists_raises_of_fault hr h ht
  exact c.code_ne_none

/-- Settles O30: a fault is `Block.raise` as a whole, and its cause follows from the operand. -/
theorem faultEntryPrecise : Obligations.FaultEntryPrecise := by
  unfold Obligations.FaultEntryPrecise
  intro P i b t hr h ht
  obtain ⟨c, hc, rfl⟩ := exists_raises_of_fault hr h ht
  exact ⟨by rw [← code_of_raises hc, Block.raise], step_ne_next_of_fault ht⟩

/-- Settles O31: NEG_EXPONENT needs an exponent, and operand 7 has none. -/
theorem oneFault : Obligations.OneFault := by
  unfold Obligations.OneFault
  refine fun P b => ⟨fun i hi => ?reserved, fun i t _ hnone h hneg => ?negative⟩
  case reserved =>
    have hsub : [Instr.adv 7, .bdv 7, .cdv 7] ⊆ [.adv 7, .bst 7, .out 7, .bdv 7, .cdv 7] := by decide
    exact exec_of_raises (c := .comboReserved) (hsub hi)
  case negative =>
    rcases exec_completed_or_raises h with hc | ⟨c, hc, rfl⟩
    · obtain ⟨-, hcode, -⟩ := hc.status
      rw [hcode, hnone] at hneg
      cases hneg
    · obtain rfl : c = .negExponent := Cause.code_injective hneg
      obtain ⟨hi, k, hk, -⟩ := hc
      exact ⟨hi, opd_ne_seven_of_combo hk⟩

/-- Settles O32: by the kind of event, in the order core step, RESET, LOAD, START, READ. -/
theorem faultHeld : Obligations.FaultHeld := by
  unfold Obligations.FaultHeld
  refine fun P b hf => ⟨step_ne_next_of_fault hf, fun e t ha => ?held, fun x y z hx hy hz =>
    ⟨_, hostStart_of_fits (by simp [hf]) hx hy hz, rfl, rfl, rfl⟩,
    fun draw => ⟨_, rfl, rfl, rfl, rfl⟩⟩
  case held =>
    rcases act_cases ha with ⟨-, hs⟩ | ⟨draw, rfl, -⟩ | ⟨ws, -, hl⟩ | ⟨x, y, z, rfl, -⟩ | ⟨_, -, ht⟩
    · exact absurd hs (step_ne_next_of_fault hf _)
    · exact .inr (.inr ⟨draw, rfl⟩)
    · obtain ⟨-, -, ht⟩ := hostLoad_cases hl
      obtain rfl := Block.state_inj ht
      exact .inl ⟨hf, rfl, rfl⟩
    · exact .inr (.inl ⟨x, y, z, rfl⟩)
    · obtain rfl := Block.state_inj ht
      exact .inl ⟨hf, rfl, rfl⟩

/-- Settles O18: a step that has a next state is a step in RUN, so any other event is a command. -/
theorem noStepOutsideRun : Obligations.NoStepOutsideRun := by
  unfold Obligations.NoStepOutsideRun
  refine fun s => ⟨step_of_idle, step_of_halt, step_of_fault, fun e t hne ha => ?_⟩
  cases e with
  | coreStep => exact absurd (step_cases (b := s.block) ha).1 hne
  | command cmd => exact ⟨cmd, rfl⟩

end Sys2Proof.Machine
end

section
/-!
Two blocks that differ in program memory alone: what a step does with it, and that the words above PLEN
have no part in it (R32, R46, R100, R152).
-/

namespace Sys2Proof.Machine

variable {P : Config.Params}

/-! ### Another program memory -/

/-- The block with another program memory. -/
def Block.withPmem (b : Block P) (m : Memory) : Block P := { b with pmem := m }

@[simp] theorem Block.withPmem_status (b : Block P) (m : Memory) :
    (b.withPmem m).status = b.status := rfl

@[simp] theorem Block.withPmem_plen (b : Block P) (m : Memory) : (b.withPmem m).plen = b.plen := rfl

@[simp] theorem Block.withPmem_pmem (b : Block P) (m : Memory) : (b.withPmem m).pmem = m := rfl

@[simp] theorem Block.withPmem_regs (b : Block P) (m : Memory) : (b.withPmem m).regs = b.regs := rfl

@[simp] theorem Block.withPmem_ip (b : Block P) (m : Memory) : (b.withPmem m).ip = b.ip := rfl

/-- The host observes nothing of program memory (R152). -/
theorem Block.observe_withPmem (b : Block P) (m : Memory) : (b.withPmem m).observe = b.observe := rfl

/-- Blocks with the same `PLEN` and the same observation differ in program memory alone (R33, R152). -/
theorem Block.eq_withPmem {b b' : Block P} (hplen : b.plen = b'.plen)
    (hobs : b.observe = b'.observe) : b' = b.withPmem b'.pmem := by
  cases b
  cases b'
  simp_all [Block.observe, Block.withPmem]

/-! ### An instruction reads no program memory -/

/-- Finishing an instruction writes no program memory, when its effect writes none. -/
theorem complete_withPmem {α : Type} {r : Except Cause α} {b t : Block P} {m : Memory}
    {effect effect' : α → Block P} (heffect : ∀ v, effect' v = (effect v).withPmem m)
    (h : complete r b effect = .next t.state) :
    complete r (b.withPmem m) effect' = .next (t.withPmem m).state := by
  cases r with
  | ok v =>
    obtain rfl := next_state_inj h
    rw [complete, heffect]
  | error c =>
    obtain rfl := next_state_inj h
    rfl

/-- An instruction does the same whatever program memory holds. -/
theorem exec_withPmem {i : Instr} {b t : Block P} (h : exec i b.state = .next t.state) (m : Memory) :
    exec i (b.withPmem m).state = .next (t.withPmem m).state := by
  cases i with
  | adv o => exact complete_withPmem (fun _ => rfl) h
  | bxl o =>
    obtain rfl := next_state_inj h
    rfl
  | bst o => exact complete_withPmem (fun _ => rfl) h
  | jnz o =>
    obtain rfl := next_state_inj h
    rfl
  | bxc o =>
    obtain rfl := next_state_inj h
    rfl
  | out o => exact complete_withPmem (fun _ => rfl) h
  | bdv o => exact complete_withPmem (fun _ => rfl) h
  | cdv o => exact complete_withPmem (fun _ => rfl) h

/-! ### A step reads the program below PLEN and no other word (R46, R100) -/

/-- The same step with another program memory that has the same words below `PLEN`. -/
theorem step_withPmem {b t : Block P} {m : Memory}
    (hm : ∀ i, i < b.plen.toNat → Memory.read b.pmem i = Memory.read m i)
    (h : step b.state = .next t.state) :
    step (b.withPmem m).state = .next (t.withPmem m).state := by
  obtain ⟨hr, ⟨hp, ht⟩ | ⟨hlt, hmax, he⟩⟩ := step_cases h
  · obtain rfl := Block.state_inj ht
    exact step_halt hr hp
  · rw [hm _ hlt] at he
    exact (step_exec (b := b.withPmem m) hr hlt hmax).trans (exec_withPmem he m)

theorem ne_run_of_noStep {b : Block P} {r : Fault} (h : noStep b = some r) : b.status ≠ .run :=
  fun hr => by simp [(noStep_eq_none_iff b).2 hr] at h

theorem haltDue_eq_false {b : Block P} (h : ¬ b.plen.toNat ≤ b.ip.toNat) : haltDue b = false :=
  Bool.eq_false_iff.2 fun hd => h ((haltDue_iff b).1 hd)

/-- The core stops where it has no step, or where it would fetch past program memory; the words do not
matter (R40, R100). -/
theorem step_eq_fault_iff (b : Block P) (r : Fault) :
    step b.state = .fault r ↔ noStep b = some r ∨
      (b.status = .run ∧ b.ip.toNat < b.plen.toNat ∧ P.pmax ≤ b.ip.toNat ∧ r = .noSuchPair) := by
  cases hn : noStep b with
  | some q => simp [step_of_noStep (s := b.state) hn, ne_run_of_noStep hn]
  | none =>
    have hr := (noStep_eq_none_iff b).1 hn
    by_cases hp : b.plen.toNat ≤ b.ip.toNat
    · simp [step_halt hr hp, hp]
    by_cases hmax : b.ip.toNat < P.pmax
    · obtain ⟨u, hu⟩ := exec_next (decode (Memory.read b.pmem b.ip.toNat)) b
      simp [step_exec hr (Nat.lt_of_not_le hp) hmax, hu, hmax]
    · simp [step, hn, haltDue_eq_false hp, fetch, hmax, hr, Nat.lt_of_not_le hp,
        Nat.le_of_not_lt hmax, eq_comm]

/-- When the output port delivers a digit: the step executes an instruction that emits it (R145). -/
theorem outPort_eq_some_iff (b : Block P) (d : Digit) :
    outPort b.state = some d ↔ b.status = .run ∧ b.ip.toNat < b.plen.toNat ∧ b.ip.toNat < P.pmax ∧
      emitted (decode (Memory.read b.pmem b.ip.toNat)) b.regs = some d := by
  cases hn : noStep b with
  | some q => simp [outPort, hn, ne_run_of_noStep hn]
  | none =>
    have hr := (noStep_eq_none_iff b).1 hn
    by_cases hp : b.plen.toNat ≤ b.ip.toNat
    · simp [outPort, hn, (haltDue_iff b).2 hp, Nat.not_lt_of_le hp]
    by_cases hmax : b.ip.toNat < P.pmax
    · simp [outPort, hn, haltDue_eq_false hp, fetch, hmax, hr, Nat.lt_of_not_le hp]
    · simp [outPort, hn, haltDue_eq_false hp, fetch, hmax]

/-- The port delivers the same digit with another program memory of the same words below `PLEN`. -/
theorem outPort_withPmem {b : Block P} {m : Memory}
    (hm : ∀ i, i < b.plen.toNat → Memory.read b.pmem i = Memory.read m i) :
    outPort (b.withPmem m).state = outPort b.state := by
  refine Option.ext fun d => ?_
  rw [outPort_eq_some_iff, outPort_eq_some_iff]
  refine and_congr_right fun _ => and_congr_right fun hlt => ?_
  simp [hm b.ip.toNat hlt]

/-- Settles O36: the two blocks differ in program memory alone, a step reads it below PLEN alone, and
writes neither it nor PLEN. -/
theorem stepKeepsAgreement : Obligations.StepKeepsAgreement := by
  unfold Obligations.StepKeepsAgreement
  rintro P b b' ⟨hplen, hm⟩ hobs
  rw [Block.eq_withPmem hplen hobs]
  refine ⟨fun u hu => ?next, fun r => ?fault, (outPort_withPmem hm).symm⟩
  case next =>
    have hprog : SameProgram u (u.withPmem b'.pmem) := by
      refine ⟨rfl, ?_⟩
      rw [step_keeps_plen hu, step_keeps_pmem hu]
      exact hm
    exact ⟨u.withPmem b'.pmem, step_withPmem hm hu, hprog, (u.observe_withPmem _).symm⟩
  case fault => simp [step_eq_fault_iff, noStep]

/-! ### Runs of agreeing blocks (R152) -/

/-- Two blocks that hold the same program and agree on what the host observes do so along every run,
and deliver the same digits. -/
theorem run_agreement (n : Nat) : ∀ {b b' : Block P}, SameProgram b b' → b.observe = b'.observe →
    (∀ u : Block P, Host.Core.run Sys2Proof.core n b.state = .next u.state → ∃ u' : Block P,
      Host.Core.run Sys2Proof.core n b'.state = .next u'.state ∧ u'.observe = u.observe) ∧
    (∀ r, Host.Core.run Sys2Proof.core n b.state = .fault r →
      Host.Core.run Sys2Proof.core n b'.state = .fault r) ∧
    delivered n b.state = delivered n b'.state := by
  induction n with
  | zero =>
    intro b b' _ hobs
    refine ⟨fun u hu => ⟨b', rfl, ?_⟩, nofun, rfl⟩
    obtain rfl := next_state_inj hu
    exact hobs.symm
  | succ n ih =>
    intro b b' hprog hobs
    obtain ⟨hnext, hfault, hport⟩ := stepKeepsAgreement P b b' hprog hobs
    cases hs : step b.state with
    | next t =>
      obtain ⟨t, rfl⟩ := step_block hs
      obtain ⟨t', hs', hprog', hobs'⟩ := hnext t hs
      obtain ⟨hrun, hstop, hdel⟩ := ih hprog' hobs'
      rw [run_succ_next n hs, run_succ_next n hs']
      exact ⟨hrun, hstop, by simp only [delivered, hs, hs', hport, hdel]⟩
    | fault r =>
      have hs' := hfault r hs
      rw [run_succ_fault n hs, run_succ_fault n hs']
      exact ⟨nofun, fun _ => id, by simp only [delivered, hs, hs']⟩
    | refused r => exact absurd hs (step_not_refused _ r)

/-- Settles O46: START makes two blocks of the same program agree on all that the host observes. -/
theorem runDetermined : Obligations.RunDetermined := by
  unfold Obligations.RunDetermined
  intro P b b' t t' x y z n hprog hs hs'
  obtain ⟨-, -, ht⟩ := hostStart_cases hs
  obtain ⟨-, -, ht'⟩ := hostStart_cases hs'
  obtain rfl := Block.state_inj ht
  obtain rfl := Block.state_inj ht'
  exact run_agreement n hprog rfl

end Sys2Proof.Machine
end

section
/-! The output stream: what a step appends is what the port delivers (R27, R106, R145). -/

namespace Sys2Proof.Machine

variable {P : Config.Params}

/-- A word decodes to an instruction exactly when it is the instruction's encoding (R65). -/
theorem decode_eq_iff (w : InstrWord) (i : Instr) : decode w = i ↔ w = encode i :=
  ⟨fun h => by rw [← h, encode_decode], fun h => by rw [h, decode_encode]⟩

/-- The combo operand's digit is its value modulo 8 (R85, R106). -/
theorem comboDigit_eq_ok_iff (o d : Digit) (r : Regs P) :
    comboDigit o r = .ok d ↔ ∃ k, combo o r = .ok k ∧ (d.toNat : Int) = k.toInt % 8 := by
  constructor
  · intro h
    obtain ⟨-, k, hk, rfl⟩ := comboDigit_ok h
    exact ⟨k, hk, natCast_toNat_mod8 k⟩
  · rintro ⟨k, hk, hd⟩
    rw [comboDigit, hk, ← mod8_eq_of_emod hd.symm]

/-- OUT emits its digit, unless it faults, and no other instruction emits one (R106). -/
theorem emitted_eq_some_iff (i : Instr) (r : Regs P) (d : Digit) :
    emitted i r = some d ↔ ∃ o, i = .out o ∧ comboDigit o r = .ok d := by
  cases i
  case out o =>
    cases h : comboDigit o r <;> simp [emitted, h, Except.toOption]
  all_goals simp [emitted]

theorem emitted_eq_none {i : Instr} (r : Regs P) (h : i ≠ .out i.opd) : emitted i r = none := by
  refine Option.eq_none_iff_forall_ne_some.2 fun d hd => ?_
  obtain ⟨o, rfl, -⟩ := (emitted_eq_some_iff i r d).1 hd
  exact h rfl

/-- An instruction appends to the output the digit it emits. -/
theorem exec_outSeq {i : Instr} {b t : Block P} (h : exec i b.state = .next t.state) :
    t.outSeq = b.outSeq ++ (emitted i b.regs).toList := by
  by_cases hi : i = .out i.opd
  · rw [hi] at h ⊢
    rcases complete_cases h with ⟨d, hd, ht⟩ | ⟨c, hc, ht⟩ <;> obtain rfl := Block.state_inj ht
    · simp [emitted, hd, Except.toOption]
    · simp [emitted, hc, Except.toOption]
  · simp [exec_keeps_output h hi, emitted_eq_none b.regs hi]

/-- A step appends to the output the digit that its port delivers (R145). -/
theorem step_outSeq {b t : Block P} (h : step b.state = .next t.state) :
    t.outSeq = b.outSeq ++ (outPort b.state).toList := by
  obtain ⟨hr, ⟨hp, ht⟩ | ⟨hlt, hmax, he⟩⟩ := step_cases h
  · obtain rfl := Block.state_inj ht
    have hport : outPort b.state = none := Option.eq_none_iff_forall_ne_some.2 fun d hd => by
      obtain ⟨-, hlt, -⟩ := (outPort_eq_some_iff b d).1 hd
      exact Nat.not_lt_of_le hp hlt
    simp [hport]
  · have hport : outPort b.state =
        emitted (decode (Memory.read b.pmem b.ip.toNat)) b.regs := Option.ext fun d => by
      simp [outPort_eq_some_iff, hr, hlt, hmax]
    rw [hport, exec_outSeq he]

/-- A run appends to the output the digits that it delivers. -/
theorem run_outSeq : ∀ {n : Nat} {b u : Block P},
    Host.Core.run Sys2Proof.core n b.state = .next u.state →
      u.outSeq = b.outSeq ++ delivered n b.state
  | 0, _, _, h => by
    obtain rfl := next_state_inj h
    simp [delivered]
  | _ + 1, _, _, h => by
    obtain ⟨t, ht, hu⟩ := run_succ_cases h
    obtain ⟨t, rfl⟩ := step_block ht
    simp [run_outSeq hu, step_outSeq ht, delivered, ht]

/-- Settles O41: one step's digit, then a run's by induction from START, which empties the output; the
port by the instruction that it decodes. -/
theorem outputStream : Obligations.OutputStream := by
  unfold Obligations.OutputStream
  refine fun P => ⟨fun b t => step_outSeq, fun b t u x y z n hs hrun => ?since, fun b d => ?port⟩
  case since =>
    obtain ⟨-, -, ht⟩ := hostStart_cases hs
    obtain rfl := Block.state_inj ht
    simpa using run_outSeq hrun
  case port =>
    simp only [outPort_eq_some_iff, emitted_eq_some_iff, comboDigit_eq_ok_iff, decode_eq_iff,
      exists_and_left]

end Sys2Proof.Machine
end

section
/-! The host's commands: RESET, LOAD, START, their duties and the boot sequence (R140 to R148). -/

namespace Sys2Proof.Machine

variable {P : Config.Params}

/-! ### What RESET may leave (R32) -/

/-- A loaded word reads back. -/
theorem Memory.read_load_zero (m : Memory) (ws : List InstrWord) {i : Nat} (h : i < ws.length) :
    Memory.read (Memory.load m 0 ws) i = ws[i] := by
  simpa using Memory.read_load_inside m 0 ws h

/-- In canonical form a cell outside program memory reads as an unlisted one. -/
theorem Memory.read_of_le {m : Memory} (hwf : Memory.wf m) {n i : Nat} (hrange : ∀ x ∈ m, x.1 < n)
    (hi : n ≤ i) : Memory.read m i = unlistedWord := by
  by_contra hne
  exact Nat.not_lt_of_le hi (hrange _ ((Memory.mem_iff_read hwf i _).2 ⟨hne, rfl⟩))

/-- Loading the words of a memory's cells into an empty one gives it back. -/
theorem Memory.load_reads {m : Memory} (hwf : Memory.wf m) {n : Nat} (hrange : ∀ x ∈ m, x.1 < n) :
    Memory.load [] 0 ((List.range n).map (Memory.read m)) = m := by
  refine Memory.eq_of_read_eq (Memory.load_keeps_wf 0 _ (by decide)) hwf fun i => ?_
  by_cases hi : i < n
  · rw [Memory.read_load_zero _ _ (by simpa using hi), List.getElem_map, List.getElem_range]
  · rw [Memory.read_load_outside _ _ _ (.inr (by simpa using hi)), Memory.read_nil,
      Memory.read_of_le hwf hrange (Nat.le_of_not_lt hi)]

/-- The draw that gives a register file and a program memory. -/
def Draw.ofContents (r : Regs P) (m : Memory) : Draw :=
  ⟨r.a.toInt, r.b.toInt, r.c.toInt, (List.range P.pmax).map (Memory.read m)⟩

theorem Draw.regs_ofContents (r : Regs P) (m : Memory) : (Draw.ofContents r m).regs P = r := by
  simp [Draw.ofContents, Draw.regs]

theorem Draw.pmem_ofContents (r : Regs P) {m : Memory} (hwf : Memory.wf m)
    (hrange : ∀ x ∈ m, x.1 < P.pmax) : (Draw.ofContents r m).pmem P = m := by
  rw [Draw.pmem, Draw.ofContents, List.take_of_length_le (by simp), Memory.load_reads hwf hrange]

/-! ### LOAD and START under their preconditions (R142, R143) -/

/-- LOAD of a program that fits writes it and PLEN, outside RUN (R142). -/
theorem hostLoad_of_fits {ws : List InstrWord} {b : Block P} (hr : b.status ≠ .run)
    (hn : ws.length ≤ P.pmax) :
    hostLoad ws b.state = .next (Block.state { b with
      pmem := Memory.load b.pmem 0 ws, plen := BitVec.ofNat P.ipw ws.length }) := by
  rw [hostLoad, if_neg hr, if_pos (by simpa [programFits] using hn)]

/-- A value that fits in `XLEN` bits is the value of its pattern (R7, R146). -/
theorem toInt_ofInt_of_fits {v : Int} (h : fitsXlen P v) : (BitVec.ofInt P.xlen v).toInt = v := by
  simp only [fitsXlen, decide_eq_true_eq] at h
  obtain ⟨hlow, hhigh⟩ := h
  have hpow : (2 : Int) ^ P.xlen = 2 * 2 ^ (P.xlen - 1) := by
    rw [← pow_succ', Nat.sub_add_cancel (le_trans (by decide) P.xlen_ge)]
  exact toInt_ofInt_of_range (by omega) (by omega)

/-- Events whose first has a next state go on from it. -/
theorem acts_cons_next {e : Event} {s t : State} (h : act e s = .next t) (es : List Event) :
    acts (e :: es) s = acts es t := by
  rw [acts, h]

/-! ### The obligations -/

/-- Settles O47: the draw of given contents is `Draw.ofContents`. -/
theorem resetCommand : Obligations.ResetCommand := by
  unfold Obligations.ResetCommand
  refine fun P b => ⟨fun draw => ⟨_, rfl, rfl, rfl, rfl, rfl, rfl, rfl, rfl, fun u => ?_⟩,
    fun r m hwf hrange => ⟨Draw.ofContents r m, _, rfl, Draw.regs_ofContents r m,
      Draw.pmem_ofContents r hwf hrange⟩⟩
  rw [step_of_idle rfl]
  nofun

/-- Settles O48: by what LOAD's loop writes and what it leaves alone. -/
theorem loadCommand : Obligations.LoadCommand := by
  unfold Obligations.LoadCommand
  intro P ws b hr hn
  exact ⟨_, hostLoad_of_fits hr hn, load_plen_toNat hn, fun i => Memory.read_load_zero b.pmem ws,
    fun i hi => Memory.read_load_outside b.pmem 0 ws (.inr (by simpa using hi)),
    rfl, rfl, rfl, rfl, rfl, rfl⟩

/-- Settles O49: START writes the patterns of its values over the old registers. -/
theorem startCommand : Obligations.StartCommand := by
  unfold Obligations.StartCommand
  intro P x y z b hr hx hy hz
  exact ⟨⟨_, toInt_ofInt_of_fits hx, toInt_ofInt_of_fits hy, toInt_ofInt_of_fits hz,
      hostStart_of_fits hr hx hy hz⟩,
    fun old => (hostStart_of_fits (b := { b with regs := old }) hr hx hy hz).trans
      (hostStart_of_fits hr hx hy hz).symm⟩

/-- Settles O51: each duty is one test of LOAD or START, in the order of the tests. -/
theorem hostDuties : Obligations.HostDuties := by
  unfold Obligations.HostDuties
  refine fun s => ⟨fun hr => ⟨fun ws => if_pos hr, fun x y z => if_pos hr⟩,
    fun hr => ⟨fun ws hn => ?long, fun x y z hfit => ?wide⟩⟩
  case long =>
    have hlong : ¬ programFits s.params ws := by simpa [programFits] using hn
    exact (if_neg hr).trans (if_neg hlong)
  case wide => exact (if_neg hr).trans (if_neg hfit)

/-- Settles O52: the ip that START sets is at PLEN already. -/
theorem emptyProgramHalts : Obligations.EmptyProgramHalts := by
  unfold Obligations.EmptyProgramHalts
  intro P b t x y z hplen hs
  obtain ⟨-, ⟨hx, hy, hz⟩, ht⟩ := hostStart_cases hs
  obtain rfl := Block.state_inj ht
  refine ⟨_, step_halt rfl (by simp [hplen]), rfl, rfl, toInt_ofInt_of_fits hx,
    toInt_ofInt_of_fits hy, toInt_ofInt_of_fits hz, rfl, rfl, fun v => ?_⟩
  rw [step_of_halt rfl]
  nofun

/-- Settles O53: RESET leaves IDLE, where LOAD is legal (O48), and LOAD keeps IDLE, where START is
(O49). -/
theorem bootSequence : Obligations.BootSequence := by
  unfold Obligations.BootSequence
  intro P ws x y z b draw hn hx hy hz
  obtain ⟨l, hload, hplen, hwords, -, hidle, -⟩ :=
    loadCommand P ws (Block.resetWith (draw.regs P) (draw.pmem P)) nofun hn
  have hr : l.status ≠ .run := by simp [hidle]
  obtain ⟨⟨r, hrx, hry, hrz, hstart⟩, -⟩ := startCommand P x y z l hr hx hy hz
  have hboot := (acts_cons_next (s := b.state) (e := .command (.reset draw)) rfl _).trans
    ((acts_cons_next hload _).trans (acts_cons_next hstart []))
  exact ⟨_, hboot, rfl, rfl, rfl, rfl, rfl, hrx, hry, hrz, hplen, hwords⟩

end Sys2Proof.Machine
end
